-- ==== Sys2Proof/Word.lean ====
section
/-! DEFINITION. The plainest types of the block: bits, registers, pin identifiers, command bit-vectors, durations. -/

namespace Sys2Proof

/-- A bit (R19): `false` is 0, logic low; `true` is 1, logic high. -/
abbrev Bit := Bool

/-- A register (R19): a finite ordered sequence of bits, index 0 first and most significant. -/
abbrev BitReg := List Bit

/-- A pin identifier (R11, D6): opaque with decidable equality; naturals suffice. -/
abbrev PinId := Nat

/-- The command code `CMD[1:0]` (R61). -/
abbrev CmdCode := BitVec 2

/-- The decode key `K[2:0]` (R62). -/
abbrev Key := BitVec 3

/-- A duration in nanoseconds (log 3, DESIGN CHOICE: the spec names no unit but the microsecond). -/
abbrev Duration := Nat

end Sys2Proof
end

