-- ==== Sys2Proof/Config.lean ====
section
/-! DEFINITION. The configuration of one block instance (00_scope.md R7 to R15) and the platform's free answers. -/

namespace Sys2Proof

/-- `MODE` (R7): which transport the instance is; the select of the parallel/serial mux. -/
inductive Mode where
  | par
  | bus
  deriving DecidableEq, Repr

/-- The one-bit code of `MODE` (R7): `PAR` = 0, `BUS` = 1. -/
def Mode.bit : Mode → BitVec 1
  | .par => 0#1
  | .bus => 1#1

/-- `ERR_MODE` (R13): which of the two ERR update sequences the instance performs. -/
inductive ErrMode where
  | faithful
  | corrected
  deriving DecidableEq, Repr

/-- The configuration of one instance (R7 to R14). No command writes it (R3, D1).
`NOUT` and `NIN` are the lengths of the pin sets. `VW` and `WMAX` are the bounds of a finite
implementation (R14, D4), `none` where there is none; no rule depends on them. -/
structure Config where
  mode     : Mode
  w        : Nat
  outPins  : List PinId
  inPins   : List PinId
  dataPin  : PinId
  clockPin : PinId
  tSettle  : Duration
  errMode  : ErrMode
  vw       : Option Nat
  wmax     : Option Nat
  deriving DecidableEq, Repr

/-- `NOUT` (R9). -/
def Config.nout (c : Config) : Nat := c.outPins.length

/-- `NIN` (R10). -/
def Config.nin (c : Config) : Nat := c.inPins.length

/-- The pin identifiers an instance uses (R16 e). -/
def Config.pins (c : Config) : List PinId :=
  match c.mode with
  | .par => c.outPins ++ c.inPins
  | .bus => c.inPins ++ [c.dataPin, c.clockPin]

/-- The least settle interval, 10 microseconds (R12). -/
def Config.minSettle : Duration := 10000

/-- The configuration of the one instance after reset: `W` = 8 (R8), `NOUT` = 8 (R9), `NIN` = 9 (R10),
`ERR_MODE` = FAITHFUL (R13); the mode, the pin identifiers and `T_SETTLE` are log 1 (DESIGN CHOICE). -/
def Config.initial : Config where
  mode     := .par
  w        := 8
  outPins  := [0, 1, 2, 3, 4, 5, 6, 7]
  inPins   := [8, 9, 10, 11, 12, 13, 14, 15, 16]
  dataPin  := 17
  clockPin := 18
  tSettle  := Config.minSettle
  errMode  := .faithful
  vw       := none
  wmax     := none

/-- FREE VALUE (R47, U11; log 4): whether the platform fails its `n`-th pin call. -/
opaque Config.freeFail : Nat → Bool

/-- FREE VALUE (R33, U10; log 4): the level the outside world presents at the `n`-th pin call. -/
opaque Config.freeLevel : Nat → Bit

end Sys2Proof
end

