-- ==== Sys2Proof/Syntax.lean ====
section
/-! DEFINITION. The eight commands of the block, one constructor per row of the opcode table (30_encoding.md R63). -/

namespace Sys2Proof

/-- The commands (R63). `VALUE` is a mathematical integer, so that a negative one can be presented (R64).
There is no other operand (R65). -/
inductive Instr where
  | openP
  | txP (v : Int)
  | rxP
  | closeP
  | openB
  | txB (v : Int)
  | rxB
  | closeB
  deriving DecidableEq, Repr

/-- The transport a command belongs to: bit `K[2]` of its row (R62, R63). -/
def Instr.mode : Instr → Mode
  | .openP => .par
  | .txP _ => .par
  | .rxP => .par
  | .closeP => .par
  | .openB => .bus
  | .txB _ => .bus
  | .rxB => .bus
  | .closeB => .bus

/-- The operand of a command of format V, `none` for format N (R61). -/
def Instr.operand : Instr → Option Int
  | .openP => none
  | .txP v => some v
  | .rxP => none
  | .closeP => none
  | .openB => none
  | .txB v => some v
  | .rxB => none
  | .closeB => none

end Sys2Proof
end

