-- ==== Sys2Proof/WellFormed.lean ====
section
/-! DEFINITION. Well-formed configurations (00_scope.md R16), systems of configurations with disjoint pins (R58), and well-formed commands of an instance. -/

namespace Sys2Proof

/-- R16 (a): `W >= 1`, and `W = 8` in parallel mode. -/
def Config.widthOk (c : Config) : Bool :=
  decide (1 ≤ c.w) && (decide (c.mode = .bus) || decide (c.w = 8))

/-- R16 (b): `NOUT = 8`. -/
def Config.noutOk (c : Config) : Bool := decide (c.nout = 8)

/-- R16 (c): `NIN >= 1`. -/
def Config.ninOk (c : Config) : Bool := decide (1 ≤ c.nin)

/-- R16 (d): `T_SETTLE >= 10 us`. -/
def Config.settleOk (c : Config) : Bool := decide (Config.minSettle ≤ c.tSettle)

/-- R16 (e): the pin identifiers the instance uses are pairwise distinct. -/
def Config.pinsDistinct (c : Config) : Bool := decide c.pins.Nodup

/-- `WF(cfg)` (R16). -/
def Config.wf (c : Config) : Bool :=
  c.widthOk && c.noutOk && c.ninOk && c.settleOk && c.pinsDistinct

/-- Two instances own no common pin (R58). -/
def Config.pinsDisjoint (c d : Config) : Bool := c.pins.all fun p => !d.pins.contains p

/-- The pin sets of a list of instances are pairwise disjoint (R58). -/
def Config.allDisjoint : List Config → Bool
  | [] => true
  | c :: cs => cs.all c.pinsDisjoint && Config.allDisjoint cs

/-- An implementation bounded by `WMAX` can hold the instance's width (R8, D4). No rule depends on it. -/
def Config.withinWmax (c : Config) : Bool := c.wmax.all fun m => decide (c.w ≤ m)

/-- The value can be presented at a signed port of `VW` bits, or at the unbounded port (R64, D9). -/
def Config.presentable (c : Config) (v : Int) : Bool :=
  c.vw.all fun n => decide (-(2 ^ n : Int) ≤ 2 * v ∧ 2 * v < (2 ^ n : Int))

/-- A command that the host of an instance can present: one of the instance's own transport (R62), whose
operand the instance's port can carry (R64). A negative operand is well formed: it runs and is reported (R116). -/
def Instr.wf (c : Config) (i : Instr) : Bool :=
  decide (i.mode = c.mode) && i.operand.all c.presentable

end Sys2Proof
end

