-- ==== Sys2Proof/Decode.lean ====
section
/-! DEFINITION. The decoder and the encoder of the command port (30_encoding.md R61 to R64). -/

namespace Sys2Proof

/-- The decode key `K = {MODE, CMD}` (R62). -/
def decodeKeyOf (m : Mode) (cmd : CmdCode) : Key := m.bit ++ cmd

/-- The opcode map (R63). Total: all eight keys are assigned (R62, R67). A command of format N takes no
notice of `VALUE` (R61). -/
def decodeKey (k : Key) (value : Int) : Instr :=
  match k.toFin with
  | 0 => .openP
  | 1 => .txP value
  | 2 => .rxP
  | 3 => .closeP
  | 4 => .openB
  | 5 => .txB value
  | 6 => .rxB
  | 7 => .closeB

/-- What an instance of mode `m` reads at its command port (R62: `MODE` comes from the configuration). -/
def decode (m : Mode) (cmd : CmdCode) (value : Int) : Instr := decodeKey (decodeKeyOf m cmd) value

/-- The same at a finite port, where `VALUE` is a two's-complement field of `vw` bits (R64, D9). -/
def decodePort {vw : Nat} (m : Mode) (cmd : CmdCode) (value : BitVec vw) : Instr :=
  decode m cmd value.toInt

/-- The command code of each command (R63: 00 OPEN, 01 TX, 10 RX, 11 CLOSE). -/
def encodeCmd : Instr → CmdCode
  | .openP => 0b00#2
  | .txP _ => 0b01#2
  | .rxP => 0b10#2
  | .closeP => 0b11#2
  | .openB => 0b00#2
  | .txB _ => 0b01#2
  | .rxB => 0b10#2
  | .closeB => 0b11#2

/-- The value presented with a command; 0 where the format has none (R61, log 6). -/
def encodeValue (i : Instr) : Int := i.operand.getD 0

/-- The words of a command at the unbounded port. -/
def encode (i : Instr) : CmdCode × Int := (encodeCmd i, encodeValue i)

/-- The words of a command at a finite port of `vw` bits. -/
def encodePort (vw : Nat) (i : Instr) : CmdCode × BitVec vw :=
  (encodeCmd i, BitVec.ofInt vw (encodeValue i))

/-- The decode key of a table word: its three lowest bits, the table's mask 7 (log 6). -/
def keyOfTableWord (w : Nat) : Key := BitVec.ofNat 3 w

/-- The mode a key addresses: `K[2]` (R62). -/
def modeOfKey (k : Key) : Mode := if k.getLsbD 2 then .bus else .par

/-- The command code in a key: `K[1:0]` (R62). -/
def cmdOfKey (k : Key) : CmdCode := k.extractLsb' 0 2

/-- The instruction the decoder reads from a row of the opcode table. The table gives `VALUE` no bits, so
the operand is 0; a word of fewer than three bits holds no key (log 6). -/
def decodeTableWord (nbits w : Nat) : Option Instr :=
  if nbits < 3 then none
  else
    let k := keyOfTableWord w
    some (decode (modeOfKey k) (cmdOfKey k) 0)

end Sys2Proof
end

