-- ==== Sys2Proof/Machine/State.lean ====
section
/-! DEFINITION. The state of the machine, plain data: block state, pin state, trace (10_state.md R23 to R40), and the reasons a step can stop. -/

namespace Sys2Proof.Machine

/-- `LIFE` (R24). -/
inductive Life where
  | closed
  | opened
  deriving DecidableEq, Repr

/-- `DIR[p]` (R31). `none` is "not configured / released". -/
inductive Dir where
  | none
  | inp
  | out
  deriving DecidableEq, Repr

/-- The direction argument of `configure` (R42): input or output, never none. -/
inductive IoDir where
  | inp
  | out
  deriving DecidableEq, Repr

/-- The direction a pin has after being configured. -/
def IoDir.dir : IoDir → Dir
  | .inp => .inp
  | .out => .out

/-- The four calls of the PinInterface (R41), with their arguments. -/
inductive PinCall where
  | cfg (p : PinId) (d : IoDir)
  | wr (p : PinId) (b : Bit)
  | rd (p : PinId)
  | resetAll
  deriving DecidableEq, Repr

/-- The events of the trace (R34). -/
inductive Event where
  | cfg (p : PinId) (d : IoDir)
  | wr (p : PinId) (b : Bit)
  | rd (p : PinId) (b : Bit)
  | rstAll
  | dl (t : Duration)
  | fail (c : PinCall)
  deriving DecidableEq, Repr

/-- The cell of one pin: `DIR[p]` (R31) and `DRV[p]` (R32, `none` where it has no value). -/
structure PinCell where
  dir : Dir
  drv : Option Bit
  deriving DecidableEq, Repr

/-- What an unlisted pin reads as: not configured, no driven level (R40). -/
def PinCell.initial : PinCell := ⟨.none, none⟩

/-- The pin state: pairs of a pin and its cell, pins strictly rising, no entry equal to `PinCell.initial`. -/
abbrev Pins := List (PinId × PinCell)

/-- The status of a command with its report (R114, R116 to R118). -/
inductive Status where
  | ok
  | invalidInput (v : Int)
  | pinAccessFailure (c : PinCall) (index : Option Nat)
  | lifecycleViolation (life : Life)
  deriving DecidableEq, Repr

/-- The response to a command (R73). -/
structure Response where
  status : Status
  result : Option BitReg
  deriving DecidableEq, Repr

/-- The fields of the four views a host can read (R35). -/
inductive View where
  | mode
  | w
  | nin
  | nout
  | errMode
  | outPins
  | inPins
  | dataPin
  | clockPin
  | tSettle
  | err
  | life
  | busy
  deriving DecidableEq, Repr

/-- What a read of a view delivers (R35). -/
inductive Readout where
  | mode (m : Mode)
  | nat (n : Nat)
  | errMode (m : ErrMode)
  | pin (p : PinId)
  | pins (ps : List PinId)
  | duration (t : Duration)
  | err (b : Bit)
  | life (l : Life)
  | busy (b : Bit)
  deriving DecidableEq, Repr

/-- What the outside does, one action a step: a command (R61), a read of a view (R35), the platform's own
construction (R138), a pin call of another user of the PinInterface (R58 b), a reset (R40). `port` is the place of
the addressed instance among the instances (R133, log 7). -/
inductive HostAction where
  | command (port : Nat) (cmd : CmdCode) (value : Int)
  | read (port : Nat) (view : View)
  | construct (numbering : Nat)
  | otherUser (c : PinCall)
  | reset
  deriving DecidableEq, Repr

/-- The platform's answer to one pin call: whether it fails (R47) and the level a read meets (R33). -/
structure Answer where
  fails : Bool
  level : Bit
  deriving DecidableEq, Repr

/-- One instance: its configuration (R3, never written) and its block state (R24 to R29).
`reg` and `idx` have a value only while a command executes (R23). -/
structure Block where
  cfg  : Config
  life : Life
  err  : Option Bit
  reg  : Option BitReg
  idx  : Option Nat
  busy : Bool
  deriving DecidableEq, Repr

/-- An instance after reset (R40). -/
def Block.initial (c : Config) : Block where
  cfg  := c
  life := .closed
  err  := none
  reg  := none
  idx  := none
  busy := false

/-- The state of the machine. `cur` is the addressed instance; `before` and `after` are the other instances
in their fixed order (R133, log 7). `pins` and `trace` are the platform's (R31, R32, R34), with the
PinInterface's numbering mode (`none`: not constructed yet, R138) and D18's parameter. `calls`, `world`, `host`,
`responses` and `readouts` are the model's own (logs 4, 5, 11). -/
structure State where
  before           : List Block
  cur              : Block
  after            : List Block
  pins             : Pins
  trace            : List Event
  numbering        : Option Nat
  reconfKeepsLevel : Bool
  calls            : Nat
  world            : List Answer
  host             : List HostAction
  responses        : List Response
  readouts         : List Readout
  deriving DecidableEq, Repr

/-- Why the machine stops with a fault. -/
inductive Fault where
  /-- The host read `STATUS.ERR` while ERR holds no value (R25, U1). Raised by `viewField`. Safe: the
  hardware would show some level. -/
  | errUnspecified
  deriving DecidableEq, Repr

/-- Why the machine refuses to give a meaning. -/
inductive Refusal where
  /-- Raised by an arm of `exec` that has no meaning yet; no arm does. Safe. -/
  | notModelled (mnemonic : String)
  /-- The addressed instance's configuration is ill formed (R16, U7), or a reset meets such an instance. Raised by
  `refusalOf`, `readView` and `resetSystem`. Safe. -/
  | illFormedConfig
  /-- Open instances share a pin, or would after this OPEN, or another user calls for a pin of an open instance
  (R58, U4). Raised by `refusalOf`, `openInstance`, `readView`, `resetSystem` and `otherUser`. Safe. -/
  | sharedPins
  /-- A command or another user's pin call is presented while an instance is busy (R29, R144, U8). Raised by `refusalOf`
  and `otherUser`. The assumption that a host never does so is unsafe (D12); the refusal is safe. -/
  | commandWhileBusy
  /-- A command or a pin call before the PinInterface is constructed (R138). Raised by `refusalOf` and `otherUser`.
  Safe. -/
  | noPinInterface
  /-- The PinInterface is to be constructed a second time (R138: once). Raised by `constructPlatform`. Safe. -/
  | pinInterfaceExists
  /-- A command of the transport the instance is not; a host cannot present one (R62). Raised by `refusalOf`; `step` never meets it. Safe. -/
  | wrongTransport
  /-- The host addresses an instance that does not exist (log 7). Raised by the host port. Safe. -/
  | noSuchInstance
  /-- `PinWr` to a pin not configured as output (R43, U2); no command meets it (R60), another user can. Raised by `pinWr`. Safe. -/
  | writeToNonOutput (p : PinId)
  /-- `PinRd` of a pin not configured as input (R44, U2); no command meets it (R60), another user can. Raised by `pinRd`. Safe. -/
  | readOfNonInput (p : PinId)
  /-- `REG[I]` outside the register; no command meets it (R87, R78). Raised by `regAtIndex`. Safe. -/
  | indexOutOfRange
  /-- The host reads `STATUS.ERR` while the instance is busy (R35, R38). Raised by `viewField`. Safe. -/
  | errReadWhileBusy
  /-- A reset while a command is in progress (R40, U9). Raised by `resetSystem`. Safe. -/
  | resetWhileBusy
  deriving DecidableEq, Repr

/-- The state after reset (R40, R135), with one instance (log 7) of the configuration of log 1. -/
def State.reset : State where
  before           := []
  cur              := Block.initial Config.initial
  after            := []
  pins             := []
  trace            := []
  numbering        := some 0
  reconfKeepsLevel := true
  calls            := 0
  world            := []
  host             := []
  responses        := []
  readouts         := []

/-- All instances in their fixed order. -/
def State.blocks (s : State) : List Block := s.before ++ s.cur :: s.after

end Sys2Proof.Machine
end

