-- ==== Sys2Proof/Machine/Ops.lean ====
section
/-! DEFINITION. Named updates of the state, the pin space, the four pin calls and the delay (20_memory.md), the start and the two ends of a command (R29, R73, R124). -/

namespace Sys2Proof.Machine

/-! ### Pins (R31, R32, R41) -/

/-- The cell of a pin; an unlisted pin reads as after reset. -/
def Pins.get : Pins → PinId → PinCell
  | [], _ => PinCell.initial
  | (q, c) :: rest, p => if p = q then c else Pins.get rest p

/-- A pin's entry in front of the entries of higher pins, left out if it is what an unlisted pin reads as. -/
def Pins.cons (p : PinId) (c : PinCell) (ps : Pins) : Pins :=
  if c = PinCell.initial then ps else (p, c) :: ps

/-- Write the cell of one pin, keeping the canonical form. -/
def Pins.set : Pins → PinId → PinCell → Pins
  | [], p, c => Pins.cons p c []
  | (q, d) :: rest, p, c =>
    if p < q then Pins.cons p c ((q, d) :: rest)
    else if p = q then Pins.cons p c rest
    else (q, d) :: Pins.set rest p c

/-- The canonical form: pins strictly rising, no entry equal to what an unlisted pin reads as. -/
def Pins.wf : Pins → Bool
  | [] => true
  | (p, c) :: rest =>
    decide (c ≠ PinCell.initial) && rest.all (fun e => decide (p < e.1)) && Pins.wf rest

/-- The effect of `configure` on the pin state (R42). Where `keeps` is false a re-configuration to the same
direction loses the level too (D18's cautious parameter, log 14). -/
def Pins.configure (keeps : Bool) (ps : Pins) (p : PinId) (d : IoDir) : Pins :=
  let old := ps.get p
  ps.set p ⟨d.dir, if old.dir = d.dir && keeps then old.drv else none⟩

/-- The effect of `write` on the pin state (R43). -/
def Pins.drive (ps : Pins) (p : PinId) (b : Bit) : Pins :=
  ps.set p ⟨(ps.get p).dir, some b⟩

/-- The effect of `reset_all` on the pin state (R45): every pin of the platform, so nothing stays listed. -/
def Pins.release (_ : Pins) : Pins := []

/-- What one event of the trace did to the pin state (R42 to R47). -/
def Pins.apply (keeps : Bool) (ps : Pins) : Event → Pins
  | .cfg p d => ps.configure keeps p d
  | .wr p b => ps.drive p b
  | .rd _ _ => ps
  | .rstAll => ps.release
  | .dl _ => ps
  | .fail _ => ps

/-- The pin state a list of events leads to. -/
def Pins.replay (keeps : Bool) (ps : Pins) (es : List Event) : Pins := es.foldl (Pins.apply keeps) ps

/-! ### Updates of the state -/

/-- `LIFE <- l` (R24). -/
def State.setLife (s : State) (l : Life) : State := { s with cur := { s.cur with life := l } }

/-- `ERR <- e` (R25). -/
def State.setErr (s : State) (e : Option Bit) : State := { s with cur := { s.cur with err := e } }

/-- `REG <- r` (R27). -/
def State.setReg (s : State) (r : Option BitReg) : State := { s with cur := { s.cur with reg := r } }

/-- `I <- n` (R28). -/
def State.setIdx (s : State) (i : Option Nat) : State := { s with cur := { s.cur with idx := i } }

/-- `BUSY <- b` (R29). -/
def State.setBusy (s : State) (b : Bool) : State := { s with cur := { s.cur with busy := b } }

/-- Write the pin state. -/
def State.setPins (s : State) (ps : Pins) : State := { s with pins := ps }

/-- `TR <- TR ++ [e]` (R34). -/
def State.pushEvent (s : State) (e : Event) : State := { s with trace := s.trace ++ [e] }

/-- One more pin call has been made (log 4). -/
def State.tick (s : State) : State := { s with calls := s.calls + 1 }

/-- A response reaches the host (R73). -/
def State.pushResponse (s : State) (r : Response) : State := { s with responses := s.responses ++ [r] }

/-- A read of a view reaches the host (R35). -/
def State.pushReadout (s : State) (r : Readout) : State := { s with readouts := s.readouts ++ [r] }

/-- Replace what the host is still to do. -/
def State.setHost (s : State) (h : List HostAction) : State := { s with host := h }

/-- Give the PinInterface its numbering mode (R15, R138). -/
def State.setNumbering (s : State) (n : Option Nat) : State := { s with numbering := n }

/-- Address the instance at place `port` (R133, log 7). -/
def State.select (s : State) (port : Nat) : Option State :=
  match s.blocks[port]? with
  | none => none
  | some b =>
    some { s with before := s.blocks.take port, cur := b, after := s.blocks.drop (port + 1) }

/-! ### The outcome of a part of a command -/

/-- A part of a command is done with a value, or has raised a status (R124) at a state, or met something the spec gives no meaning. -/
inductive Res (α : Type) where
  | done (a : α) (s : State)
  | raised (x : Status) (s : State)
  | refused (r : Refusal)
  deriving Repr

/-- Go on with the next part; after a `raise` nothing more is performed (R22). -/
def Res.bind {α β : Type} (x : Res α) (f : α → State → Res β) : Res β :=
  match x with
  | .done a s => f a s
  | .raised e s => .raised e s
  | .refused r => .refused r

/-! ### The pin calls (R42 to R47) -/

/-- The platform's answer to its `n`-th pin call: the known one, or a free value (log 4). -/
def State.answer (s : State) (n : Nat) : Answer :=
  s.world.getD n ⟨Config.freeFail n, Config.freeLevel n⟩

/-- A pin call: the platform may fail it, which changes no pin state, appends `Fail(call)` and raises
`PinAccessFailure(call, I)` (R47, D20); otherwise it completes. -/
def pinCall {α : Type} (c : PinCall) (complete : Answer → State → Res α) (s : State) : Res α :=
  let a := s.answer s.calls
  if a.fails then .raised (.pinAccessFailure c s.cur.idx) (s.tick.pushEvent (.fail c))
  else complete a s.tick

/-- `PinCfg(p, d)` (R42). -/
def pinCfg (p : PinId) (d : IoDir) (s : State) : Res Unit :=
  pinCall (.cfg p d)
    (fun _ s => .done () ((s.setPins (s.pins.configure s.reconfKeepsLevel p d)).pushEvent (.cfg p d))) s

/-- `PinWr(p, b)` (R43), with its `require` (U2). -/
def pinWr (p : PinId) (b : Bit) (s : State) : Res Unit :=
  if (s.pins.get p).dir = .out then
    pinCall (.wr p b) (fun _ s => .done () ((s.setPins (s.pins.drive p b)).pushEvent (.wr p b))) s
  else .refused (.writeToNonOutput p)

/-- `PinRd(p)` (R44), with its `require` (U2); the level is the world's (R33). -/
def pinRd (p : PinId) (s : State) : Res Bit :=
  if (s.pins.get p).dir = .inp then
    pinCall (.rd p) (fun a s => .done a.level (s.pushEvent (.rd p a.level))) s
  else .refused (.readOfNonInput p)

/-- `PinResetAll()` (R45). -/
def pinResetAll (s : State) : Res Unit :=
  pinCall .resetAll (fun _ s => .done () ((s.setPins s.pins.release).pushEvent .rstAll)) s

/-- `Delay(t)` (R46): cannot fail, leaves only its event. -/
def delay (t : Duration) (s : State) : Res Unit := .done () (s.pushEvent (.dl t))

/-! ### The start and the ends of a command -/

/-- The configurations of the open instances. -/
def State.openConfigs (s : State) : List Config :=
  (s.blocks.filter fun b => decide (b.life = .opened)).map Block.cfg

/-- The pin sets of the open instances are pairwise disjoint (R58). -/
def State.openDisjoint (s : State) : Bool := Config.allDisjoint s.openConfigs

/-- Some instance is executing a command (R29, R133). -/
def State.anyBusy (s : State) : Bool := s.blocks.any Block.busy

/-- Where the spec gives the presented command no meaning, the reason (log 8). -/
def refusalOf (m : Mode) (s : State) : Option Refusal :=
  if s.numbering = none then some .noPinInterface
  else if s.anyBusy then some .commandWhileBusy
  else if s.cur.cfg.mode ≠ m then some .wrongTransport
  else if !s.cur.cfg.wf then some .illFormedConfig
  else if !s.openDisjoint then some .sharedPins
  else none

/-- The end of a command, normal or fault: `BUSY <- 0`, `REG` and `I` lose their values (R39, R124), one
response goes to the host (R73). -/
def finish (r : Response) (s : State) : State :=
  (((s.setReg none).setIdx none).setBusy false).pushResponse r

/-- Fault entry, `raise X(info)` (R124): nothing is saved and control goes nowhere; the status goes to the host. -/
def raiseStatus (x : Status) (s : State) : State := finish ⟨x, none⟩ s

/-- The normal end, `return r` (R73). There is no return from a fault: the block is simply idle (R125). -/
def returnOk (r : Option BitReg) (s : State) : State := finish ⟨.ok, r⟩ s

/-- One command from acceptance to its end (R29, R73): the lifecycle check comes first (R66, R118, R121). -/
def runCommand (m : Mode) (legal : Life) (body : State → Res (Option BitReg)) (s : State) :
    Host.Outcome State Fault Refusal :=
  match refusalOf m s with
  | some r => .refused r
  | none =>
    if s.cur.life = legal then
      match body (s.setBusy true) with
      | .done r t => .next (returnOk r t)
      | .raised x t => .next (raiseStatus x t)
      | .refused r => .refused r
    else .next (raiseStatus (.lifecycleViolation s.cur.life) (s.setBusy true))

/-! ### Reset (R40, R135, R137) -/

/-- The platform and all its instances as after reset, each with its configuration (R40). The trace starts
anew (R34: "since reset"). The model's own fields, the numbering mode and D18's parameter stay (log 18). -/
def State.resetAll (s : State) : State :=
  { s with
    before := s.before.map fun b => Block.initial b.cfg
    cur    := Block.initial s.cur.cfg
    after  := s.after.map fun b => Block.initial b.cfg
    pins   := []
    trace  := [] }

/-- Every instance's configuration is well formed (R16). -/
def State.allWf (s : State) : Bool := s.blocks.all fun b => b.cfg.wf

/-- Reset by the outside; during a command it has no meaning (R40, U9), nor in a system of an ill-formed instance
(R16) or of open instances that share a pin (R58, log 8). -/
def resetSystem (s : State) : Host.Outcome State Fault Refusal :=
  if s.anyBusy then .refused .resetWhileBusy
  else if !s.allWf then .refused .illFormedConfig
  else if !s.openDisjoint then .refused .sharedPins
  else .next s.resetAll

end Sys2Proof.Machine
end

