-- ==== Sys2Proof/Machine/Operands.lean ====
section
/-! DEFINITION. The operand of TX (R64, R116), the integer-to-bitvector encoder (40_bitcodec.md), the register's indexed read (R27) and the input-bank sample (R91). -/

namespace Sys2Proof.Machine

/-- `digits(n)` (R21), the recursion unfolded at most `fuel` times; `fuel = n` is always enough. -/
def digitsFuel : Nat → Nat → BitReg
  | 0, _ => []
  | fuel + 1, n => if n = 0 then [] else digitsFuel fuel (n / 2) ++ [decide (n % 2 = 1)]

/-- `digits(n)` (R21). -/
def digits (n : Nat) : BitReg := digitsFuel n n

/-- `bin(v)`, the minimal big-endian representation (R21, R75). -/
def bin (v : Nat) : BitReg := if v = 0 then [false] else digits v

/-- `blen(v)` (R21). -/
def blen (v : Nat) : Nat := (bin v).length

/-- `Encode(v, W)` (R74): padded at the front (R76), overflow carried (R77). -/
def encodeValueBits (v w : Nat) : BitReg :=
  let m := bin v
  if m.length < w then List.replicate (w - m.length) false ++ m else m

/-- `val(r)` (R19), notation for laws only: no command computes it (R83). -/
def val (r : BitReg) : Nat := r.foldl (fun n b => 2 * n + b.toNat) 0

/-- The operand of TX: a negative value raises `InvalidInput(v)` before any pin call (R64, R116). -/
def nonNegative (v : Int) (s : State) : Res Nat :=
  if v < 0 then .raised (.invalidInput v) s else .done v.toNat s

/-- `REG[I]` (R27, R28). -/
def regAtIndex (s : State) : Res Bit :=
  match s.cur.reg, s.cur.idx with
  | some r, some i =>
    match r[i]? with
    | some b => .done b s
    | none => .refused .indexOutOfRange
  | _, _ => .refused .indexOutOfRange

/-- `Sample()`'s loop (R91) over the pins still to be read, with the bits read so far: each pin is
configured and then read before the next is touched (D26). -/
def samplePins : List (PinId × Nat) → BitReg → State → Res BitReg
  | [], r, s => .done r s
  | (p, i) :: rest, r, s =>
    (pinCfg p .inp (s.setIdx (some i))).bind fun _ s =>
    (pinRd p s).bind fun b s =>
    samplePins rest (r ++ [b]) s

/-- `Sample()` (R91): ascending index over `INPINS`, no block state but `I` written. -/
def sample (s : State) : Res BitReg :=
  (samplePins s.cur.cfg.inPins.zipIdx [] s).bind fun r s => .done r (s.setIdx none)

end Sys2Proof.Machine
end

