-- ==== Sys2Proof/Machine/Flags.lean ====
section
/-! DEFINITION. The only flag of the block: the ERR update sequence (10_state.md R25, R26). -/

namespace Sys2Proof.Machine

/-- `ErrUpdate(L, C)` (R26): in FAITHFUL mode the conditional set, then the unconditional clear; in CORRECTED
mode one write. No pin call, no event. -/
def errUpdate (len cap : Nat) (s : State) : State :=
  match s.cur.cfg.errMode with
  | .faithful =>
    let s := if cap < len then s.setErr (some true) else s
    s.setErr (some false)
  | .corrected => s.setErr (some (decide (len > cap)))

/-- `len(REG)` (R27). -/
def State.regLength (s : State) : Nat := (s.cur.reg.getD []).length

end Sys2Proof.Machine
end

