-- ==== Sys2Proof/Machine/Bus.lean ====
section
/-! DEFINITION. The bus transport and its clock-timing engine (42_bus_transport.md): TX.B and RX.B. -/

namespace Sys2Proof.Machine

/-- `ClockPulse()` (R97): high, hold, low, hold. -/
def clockPulse (s : State) : Res Unit :=
  (pinWr s.cur.cfg.clockPin true s).bind fun _ s =>
  (delay s.cur.cfg.tSettle s).bind fun _ s =>
  (pinWr s.cur.cfg.clockPin false s).bind fun _ s =>
  delay s.cur.cfg.tSettle s

/-- One bit-cycle (R95, R96): both pins configured, data pin first (D27), the data written, one pulse. -/
def bitCycle (s : State) : Res Unit :=
  (pinCfg s.cur.cfg.dataPin .out s).bind fun _ s =>
  (pinCfg s.cur.cfg.clockPin .out s).bind fun _ s =>
  (regAtIndex s).bind fun b s =>
  (pinWr s.cur.cfg.dataPin b s).bind fun _ s =>
  clockPulse s

/-- The guard of the bus loop, both conjuncts (R95, R99): `I < len(REG) and I < W`. -/
def loopGuard (s : State) : Bool :=
  match s.cur.idx with
  | some i => decide (i < s.regLength) && decide (i < s.cur.cfg.w)
  | none => false

/-- The bus loop (R95). `I` starts at 0 and the guard asks `I < W`, so `W` unfoldings are all it can make (R103). -/
def bitLoop : Nat → State → Res Unit
  | 0, s => .done () s
  | fuel + 1, s =>
    if loopGuard s then
      (bitCycle s).bind fun _ s => bitLoop fuel (s.setIdx (s.cur.idx.map (· + 1)))
    else .done () s

/-- The body of TX.B on a natural value (R95), which is also the teardown transmit of CLOSE.B (R111). -/
def busTransmit (v : Nat) (s : State) : Res Unit :=
  let s := (s.setReg (some (encodeValueBits v s.cur.cfg.w))).setIdx (some 0)
  (bitLoop s.cur.cfg.w s).bind fun _ s =>
  .done () (errUpdate s.regLength s.cur.cfg.w (s.setIdx none))

/-- `TX.B v` (R95). -/
def execTxB (v : Int) (s : State) : Host.Outcome State Fault Refusal :=
  runCommand .bus .opened
    (fun s => (nonNegative v s).bind fun n s => (busTransmit n s).bind fun _ s => .done none s) s

/-- `RX.B` (R102): the same bank as the parallel transport's, no use of the data and clock pins. -/
def execRxB (s : State) : Host.Outcome State Fault Refusal :=
  runCommand .bus .opened (fun s => (sample s).bind fun r s => .done (some r) s) s

end Sys2Proof.Machine
end

