-- ==== Sys2Proof/Machine/Lifecycle.lean ====
section
/-! DEFINITION. The lifetime commands (43_lifecycle.md): OPEN and CLOSE of both transports. -/

namespace Sys2Proof.Machine

/-- The acquire (R108, R109): no pin call. An instance whose pins an open instance owns cannot be given a
meaning once open (R58, log 8). DESIGN CHOICE (log 20): another user of the PinInterface owns no pin beyond its own
call, so a pin it has configured and not released does not stop the OPEN of an instance with that pin. -/
def openInstance (s : State) : Res (Option BitReg) :=
  let t := (s.setErr none).setLife .opened
  if t.openDisjoint then .done none t else .refused .sharedPins

/-- The release (R110, R111): `PinResetAll`, then `ERR` and `LIFE`. -/
def releaseInstance (s : State) : Res (Option BitReg) :=
  (pinResetAll s).bind fun _ s => .done none ((s.setErr none).setLife .closed)

/-- `OPEN.P` (R108). -/
def execOpenP (s : State) : Host.Outcome State Fault Refusal := runCommand .par .closed openInstance s

/-- `OPEN.B` (R109). -/
def execOpenB (s : State) : Host.Outcome State Fault Refusal := runCommand .bus .closed openInstance s

/-- `CLOSE.P` (R110): releases without clearing the outputs. -/
def execCloseP (s : State) : Host.Outcome State Fault Refusal := runCommand .par .opened releaseInstance s

/-- `CLOSE.B` (R111): transmits 0, then releases. -/
def execCloseB (s : State) : Host.Outcome State Fault Refusal :=
  runCommand .bus .opened (fun s => (busTransmit 0 s).bind fun _ s => releaseInstance s) s

end Sys2Proof.Machine
end

