-- ==== Sys2Proof/Machine/Parallel.lean ====
section
/-! DEFINITION. The parallel transport (41_parallel_transport.md): TX.P and RX.P. -/

namespace Sys2Proof.Machine

/-- The pin loop of TX.P (R87) over the pins still to be driven: configure, then write `REG[I]`. -/
def writePins : List (PinId × Nat) → State → Res Unit
  | [], s => .done () s
  | (p, i) :: rest, s =>
    (pinCfg p .out (s.setIdx (some i))).bind fun _ s =>
    (regAtIndex s).bind fun b s =>
    (pinWr p b s).bind fun _ s =>
    writePins rest s

/-- The body of TX.P on a natural value (R87): descending index over `OUTPINS` (R90). -/
def parallelTransmit (v : Nat) (s : State) : Res Unit :=
  let s := s.setReg (some (encodeValueBits v 8))
  (writePins s.cur.cfg.outPins.zipIdx.reverse s).bind fun _ s =>
  .done () (errUpdate s.regLength s.cur.cfg.nout (s.setIdx none))

/-- `TX.P v` (R87). -/
def execTxP (v : Int) (s : State) : Host.Outcome State Fault Refusal :=
  runCommand .par .opened
    (fun s => (nonNegative v s).bind fun n s => (parallelTransmit n s).bind fun _ s => .done none s) s

/-- `RX.P` (R92). -/
def execRxP (s : State) : Host.Outcome State Fault Refusal :=
  runCommand .par .opened (fun s => (sample s).bind fun r s => .done (some r) s) s

end Sys2Proof.Machine
end

