-- ==== Sys2Proof/Machine/Dispatch.lean ====
section
/-! DEFINITION. One arm per command (30_encoding.md R63). -/

namespace Sys2Proof.Machine

def exec (i : Instr) (s : State) : Host.Outcome State Fault Refusal :=
  match i with
  | .openP => Sys2Proof.Machine.execOpenP s
  | .txP v => Sys2Proof.Machine.execTxP v s
  | .rxP => Sys2Proof.Machine.execRxP s
  | .closeP => Sys2Proof.Machine.execCloseP s
  | .openB => Sys2Proof.Machine.execOpenB s
  | .txB v => Sys2Proof.Machine.execTxB v s
  | .rxB => Sys2Proof.Machine.execRxB s
  | .closeB => Sys2Proof.Machine.execCloseB s

end Sys2Proof.Machine
end

