-- ==== Sys2Proof/Machine/Views.lean ====
section
/-! DEFINITION. What the host can see: the views (10_state.md R35), the codes of a response (R114), the level of a pin (R59), the signal-level rendering (R105, R106), the observations of a trace (R97, R98), and the host-side functions (R71, R72). -/

namespace Sys2Proof.Machine

/-- What a read of one view field of the addressed instance delivers (R35). `ERR` is readable only while not busy
(R38); where it holds no value the read is a fault (U1). -/
def viewField (v : View) (s : State) : Host.Outcome State Fault Refusal :=
  match v with
  | .mode => .next (s.pushReadout (.mode s.cur.cfg.mode))
  | .w => .next (s.pushReadout (.nat s.cur.cfg.w))
  | .nin => .next (s.pushReadout (.nat s.cur.cfg.nin))
  | .nout => .next (s.pushReadout (.nat s.cur.cfg.nout))
  | .errMode => .next (s.pushReadout (.errMode s.cur.cfg.errMode))
  | .outPins => .next (s.pushReadout (.pins s.cur.cfg.outPins))
  | .inPins => .next (s.pushReadout (.pins s.cur.cfg.inPins))
  | .dataPin => .next (s.pushReadout (.pin s.cur.cfg.dataPin))
  | .clockPin => .next (s.pushReadout (.pin s.cur.cfg.clockPin))
  | .tSettle => .next (s.pushReadout (.duration s.cur.cfg.tSettle))
  | .err =>
    if s.cur.busy then .refused .errReadWhileBusy
    else
      match s.cur.err with
      | some b => .next (s.pushReadout (.err b))
      | none => .fault .errUnspecified
  | .life => .next (s.pushReadout (.life s.cur.life))
  | .busy => .next (s.pushReadout (.busy s.cur.busy))

/-- A read of a view (R35). An instance of an ill-formed configuration (R16), and a system whose open instances share
a pin (R58), have no meaning, so a read there is refused (log 8). -/
def readView (v : View) (s : State) : Host.Outcome State Fault Refusal :=
  if !s.cur.cfg.wf then .refused .illFormedConfig
  else if !s.openDisjoint then .refused .sharedPins
  else viewField v s

/-- The cause codes (R114). -/
def Status.code : Status → BitVec 2
  | .ok => 0#2
  | .invalidInput _ => 1#2
  | .pinAccessFailure _ _ => 2#2
  | .lifecycleViolation _ => 3#2

/-- The one-bit code of `ERR_MODE` (R35). -/
def errModeCode : ErrMode → Bit
  | .faithful => false
  | .corrected => true

/-- The one-bit code of `LIFE` (R35). -/
def Life.code : Life → Bit
  | .closed => false
  | .opened => true

/-- `Level(p)` (R59). -/
def State.level (s : State) (p : PinId) : Option Bit :=
  if (s.pins.get p).dir = .out then (s.pins.get p).drv else none

/-! ### Signals (R105, R106) -/

/-- The host-side output signals, as the last response left them (R105). `failIndex` and `rxData` have a
value only where R105 calls them valid. -/
structure HostSignals where
  busy      : Bit
  status    : Option (BitVec 2)
  failIndex : Option Nat
  rxData    : Option BitReg
  err       : Option Bit
  life      : Bit
  deriving DecidableEq, Repr

/-- `fail_index` (R105): `I` at a `PinAccessFailure`. -/
def Status.failIndex : Status → Option Nat
  | .pinAccessFailure _ i => i
  | .ok => none
  | .invalidInput _ => none
  | .lifecycleViolation _ => none

/-- The host-side signals of a state (R105). -/
def State.hostSignals (s : State) : HostSignals where
  busy      := s.cur.busy
  status    := s.responses.getLast?.map fun r => r.status.code
  failIndex := s.responses.getLast?.bind fun r => r.status.failIndex
  rxData    := s.responses.getLast?.bind Response.result
  err       := s.cur.err
  life      := s.cur.life.code

/-- `oe[p]` (R106). -/
def State.outputEnable (s : State) (p : PinId) : Bit := decide ((s.pins.get p).dir = .out)

/-- `out[p]` (R106), where it has a value. -/
def State.outputLevel (s : State) (p : PinId) : Option Bit := (s.pins.get p).drv

/-! ### Observations of a trace -/

/-- The levels written to a pin, in order (R18, R100). -/
def writesTo (p : PinId) (es : List Event) : List Bit :=
  es.filterMap fun
    | .wr q b => if q = p then some b else none
    | _ => none

/-- The number of clock pulses: the `Wr(CLOCK_PIN, 1)` events (R97). -/
def clockPulses (clock : PinId) (es : List Event) : Nat := (writesTo clock es).count true

/-- The least time a list of events takes: the sum of its delays (R46, R98). -/
def leastTime (es : List Event) : Duration :=
  (es.map fun
    | .dl t => t
    | _ => 0).sum

/-! ### Host-side functions -/

/-- `Glyph(r)` (R72): one character a bit, `@` for 1 and `o` for 0. -/
def glyph (r : BitReg) : String := String.ofList (r.map fun b => if b then '@' else 'o')

/-- The commands a process of the source's command line performs (R71): no argument samples, one transmits. -/
def processCommands (arg : Option Int) : List (CmdCode × Int) :=
  match arg with
  | none => [(0b00#2, 0), (0b10#2, 0), (0b11#2, 0)]
  | some v => [(0b00#2, 0), (0b01#2, v), (0b11#2, 0)]

end Sys2Proof.Machine
end

