-- ==== Sys2Proof/Machine/HostPort.lean ====
section
/-! DEFINITION. The command port and the host's other doings (30_encoding.md R61, R62): which instance is addressed, what it decodes, what runs. -/

namespace Sys2Proof.Machine

/-- The platform's own construction with its numbering mode, once, before any OPEN (R113, R138). -/
def constructPlatform (n : Nat) (s : State) : Host.Outcome State Fault Refusal :=
  if s.numbering = none then .next (s.setNumbering (some n)) else .refused .pinInterfaceExists

/-- A pin call on its own (R41). -/
def performCall (c : PinCall) (s : State) : Res Unit :=
  match c with
  | .cfg p d => pinCfg p d s
  | .wr p b => pinWr p b s
  | .rd p => (pinRd p s).bind fun _ s => .done () s
  | .resetAll => pinResetAll s

/-- The pins a call names. -/
def PinCall.named : PinCall → List PinId
  | .cfg p _ => [p]
  | .wr p _ => [p]
  | .rd p => [p]
  | .resetAll => []

/-- Some pin the call names belongs to an open instance (R58). -/
def State.ownsPinOf (s : State) (c : PinCall) : Bool :=
  s.openConfigs.any fun d => c.named.any fun p => d.pins.contains p

/-- A pin call of another user of the PinInterface (R58 b), between commands (D33, log 20): it acts on the same
pins and trace, its answer or failure goes to that user; a pin of an open instance it may not name (U4), and where
open instances share a pin nothing has a meaning (R58). -/
def otherUser (c : PinCall) (s : State) : Host.Outcome State Fault Refusal :=
  if s.numbering = none then .refused .noPinInterface
  else if s.anyBusy then .refused .commandWhileBusy
  else if !s.openDisjoint || s.ownsPinOf c then .refused .sharedPins
  else
    match performCall c s with
    | .done _ t => .next t
    | .raised _ t => .next t
    | .refused r => .refused r

/-- One action of the host. A command is decoded with the addressed instance's own `MODE` (R62) and executed;
a view is read (R35); the platform is constructed, used by another, or reset. -/
def serve (a : HostAction) (s : State) : Host.Outcome State Fault Refusal :=
  match a with
  | .command port cmd value =>
    match s.select port with
    | none => .refused .noSuchInstance
    | some t => exec (decode t.cur.cfg.mode cmd value) t
  | .read port view =>
    match s.select port with
    | none => .refused .noSuchInstance
    | some t => readView view t
  | .construct n => constructPlatform n s
  | .otherUser c => otherUser c s
  | .reset => resetSystem s

/-- Take the next action of the host. While it has none the block is idle and does nothing (R136). -/
def hostStep (s : State) : Host.Outcome State Fault Refusal :=
  match s.host with
  | [] => .next s
  | a :: rest => serve a (s.setHost rest)

/-- An instance configured for mode `m`; a parallel one has width 8 (R8). -/
def configureMode (m : Mode) (c : Config) : Config :=
  match m with
  | .par => { c with mode := .par, w := 8 }
  | .bus => { c with mode := .bus }

/-- The state whose next host action is the command of table word `w` to the addressed instance, which is
made an instance of the key's mode (log 6). -/
def placeCommand (s : State) (_nbits w : Nat) : State :=
  let k := keyOfTableWord w
  { s with
    cur  := { s.cur with cfg := configureMode (modeOfKey k) s.cur.cfg }
    host := .command s.before.length (cmdOfKey k) 0 :: s.host }

end Sys2Proof.Machine
end

