-- ==== Sys2Proof/Safety.lean ====
section
/-! DEFINITION. What the claims call a supported state, a ready instance, a failure-free command, and the invariants of the machine. -/

namespace Sys2Proof

/-- The four operations of both transports (R63). -/
inductive CmdKind where
  | opens
  | transmits
  | samples
  | closes
  deriving DecidableEq, Repr

/-- Which operation a command is (R63). -/
def Instr.kind : Instr → CmdKind
  | .openP => .opens
  | .txP _ => .transmits
  | .rxP => .samples
  | .closeP => .closes
  | .openB => .opens
  | .txB _ => .transmits
  | .rxB => .samples
  | .closeB => .closes

/-- The lifecycle state a command is legal in (R66). -/
def Instr.legalLife (i : Instr) : Machine.Life :=
  match i.kind with
  | .opens => .closed
  | .transmits => .opened
  | .samples => .opened
  | .closes => .opened

/-- The pins a command configures, writes or reads one by one (R41); `PinResetAll` is not counted. -/
def Instr.touches (c : Config) : Instr → List PinId
  | .openP => []
  | .txP _ => c.outPins
  | .rxP => c.inPins
  | .closeP => []
  | .openB => []
  | .txB _ => [c.dataPin, c.clockPin]
  | .rxB => c.inPins
  | .closeB => [c.dataPin, c.clockPin]

/-- The most pin calls a command makes (R93, R103). -/
def Instr.callBound (c : Config) : Instr → Nat
  | .openP => 0
  | .txP _ => 16
  | .rxP => 2 * c.nin
  | .closeP => 1
  | .openB => 0
  | .txB _ => 5 * c.w
  | .rxB => 2 * c.nin
  | .closeB => 5 * c.w + 1

end Sys2Proof

namespace Sys2Proof.Machine

/-- The response of a command that ended normally without a result (R73). -/
def Response.okay : Response := ⟨.ok, none⟩

/-- The idle invariant of one instance (R39): not busy, no register, no index, and no ERR while closed. -/
abbrev Block.Idle (b : Block) : Prop :=
  b.busy = false ∧ b.reg = none ∧ b.idx = none ∧ (b.life = .closed → b.err = none)

/-- The addressed instance can take a command of mode `m` and the system is one the spec gives a meaning to:
the PinInterface exists (R138), no instance is busy (R29, R133), the instance is of that mode (R62) and well formed
(R16), and the open instances own disjoint pins (R58). -/
abbrev State.Supported (m : Mode) (s : State) : Prop :=
  s.numbering ≠ none ∧ (∀ b ∈ s.blocks, b.busy = false) ∧ s.cur.cfg.mode = m ∧ s.cur.cfg.wf = true ∧
    s.openDisjoint = true

/-- Supported, and the addressed instance idle (R39) in the lifecycle state `l` (R66). -/
abbrev State.Ready (m : Mode) (l : Life) (s : State) : Prop :=
  s.Supported m ∧ s.cur.Idle ∧ s.cur.life = l

/-- The platform fails none of the next `n` pin calls (R47). -/
abbrev State.NoFail (s : State) (n : Nat) : Prop := ∀ k, k < n → (s.answer (s.calls + k)).fails = false

/-- The platform fails the pin call after the next `n`, and none of those `n` (R47). -/
abbrev State.FirstFail (s : State) (n : Nat) : Prop := s.NoFail n ∧ (s.answer (s.calls + n)).fails = true

/-- The levels the world presents at every second of the next pin calls: at the reads of a sample (R91). -/
def State.sampleLevels (s : State) (n : Nat) : BitReg :=
  (List.range n).map fun i => (s.answer (s.calls + 2 * i + 1)).level

/-- The state after `n` pin calls that leave the events `es`: nothing but the pin state, the trace and the
number of pin calls differs, and the pins are as the events say (R34, R42 to R47, R53). -/
def State.perform (s : State) (n : Nat) (es : List Event) : State :=
  { s with
    pins  := s.pins.replay s.reconfKeepsLevel es
    trace := s.trace ++ es
    calls := s.calls + n }

/-- The state after a failed pin call (R47): one event, one call made, nothing else. -/
def State.afterFail (s : State) (c : PinCall) : State :=
  { s with trace := s.trace ++ [.fail c], calls := s.calls + 1 }

/-- Only the addressed instance and the platform may have changed: the other instances, the configuration,
the platform's parameters and the host's further actions are as before. -/
abbrev State.SameRest (s t : State) : Prop :=
  t.before = s.before ∧ t.after = s.after ∧ t.cur.cfg = s.cur.cfg ∧ t.numbering = s.numbering ∧
    t.reconfKeepsLevel = s.reconfKeepsLevel ∧ t.world = s.world ∧ t.host = s.host ∧ t.readouts = s.readouts

/-- A driven level is found only on a pin configured as output (R32, R42, R45). -/
def State.DrivenAreOutputs (s : State) : Prop :=
  ∀ p, (s.pins.get p).drv ≠ none → (s.pins.get p).dir = .out

/-- In FAITHFUL mode ERR never reads 1 (R26, R145). -/
def Block.FaithfulErr (b : Block) : Prop := b.cfg.errMode = .faithful → b.err ≠ some true

/-- The pin state is what the trace has done since reset (R34, R42 to R45). -/
def State.PinsFollowTrace (s : State) : Prop :=
  s.pins = Pins.replay s.reconfKeepsLevel [] s.trace

/-- The invariant of the machine: canonical pins, levels only on outputs, every instance idle between steps
(R39), FAITHFUL ERR, disjoint open instances (R58), pins that follow the trace. -/
structure State.Inv (s : State) : Prop where
  pinsWf   : s.pins.wf = true
  driven   : s.DrivenAreOutputs
  idle     : ∀ b ∈ s.blocks, b.Idle
  faithful : ∀ b ∈ s.blocks, b.FaithfulErr
  disjoint : s.openDisjoint = true
  follow   : s.PinsFollowTrace

/-- What ERR holds after a completed transmit of a register of length `len` on a transport of capacity `cap`
(R26): 0 in FAITHFUL mode, whether the value overflowed in CORRECTED mode. -/
def errResult (m : ErrMode) (len cap : Nat) : Bit :=
  match m with
  | .faithful => false
  | .corrected => decide (cap < len)

/-! ### The traces the rules give, written without the machine -/

/-- The two events of one parallel pin (R87). -/
def pinWriteEvents (r : BitReg) (e : PinId × Nat) : List Event :=
  [.cfg e.1 .out, .wr e.1 (r.getD e.2 false)]

/-- The 16 events of TX.P (R87): descending index. -/
def txPEvents (c : Config) (v : Nat) : List Event :=
  c.outPins.zipIdx.reverse.flatMap (pinWriteEvents (encodeValueBits v 8))

/-- The two events of one sampled pin (R91). -/
def pinReadEvents (e : PinId × Bit) : List Event := [.cfg e.1 .inp, .rd e.1 e.2]

/-- The events of a sample that reads the given levels (R91). -/
def sampleEvents (c : Config) (levels : BitReg) : List Event :=
  (c.inPins.zip levels).flatMap pinReadEvents

/-- The seven events of one bit-cycle (R96). -/
def bitCycleEvents (c : Config) (b : Bit) : List Event :=
  [.cfg c.dataPin .out, .cfg c.clockPin .out, .wr c.dataPin b, .wr c.clockPin true, .dl c.tSettle,
    .wr c.clockPin false, .dl c.tSettle]

/-- The events of a bus transmit of `v` (R96): the first `W` bits of the register. -/
def busEvents (c : Config) (v : Nat) : List Event :=
  ((encodeValueBits v c.w).take c.w).flatMap (bitCycleEvents c)

/-- The call an event records, where it records a completed one (R34). -/
def Event.call : Event → Option PinCall
  | .cfg p d => some (.cfg p d)
  | .wr p b => some (.wr p b)
  | .rd p _ => some (.rd p)
  | .rstAll => some .resetAll
  | .dl _ => none
  | .fail _ => none

/-- What a failure-free list of events becomes when its pin call number `n` fails: the events before that call,
then `Fail` of it (R47, R117). `none` where the list has no such call. -/
def cutAtCall : Nat → List Event → Option (List Event × PinCall)
  | _, [] => none
  | n, e :: es =>
    match e.call, n with
    | none, n => (cutAtCall n es).map fun x => (e :: x.1, x.2)
    | some c, 0 => some ([.fail c], c)
    | some _, n + 1 => (cutAtCall n es).map fun x => (e :: x.1, x.2)

end Sys2Proof.Machine
end

