-- ==== Sys2Proof/Certificates/Slice0/Obligations.lean ====
section
/-! DEFINITION. The statements about the block, for the provers. -/

open Sys2Proof Sys2Proof.Machine

/-! ### Configuration and encoding -/

/-- R16: exactly the well-formed configurations; an instance of any other is refused every command. (Clause (e) is
D10.) -/
def Obligations.WellFormedConfigClauses : Prop :=
  (∀ c : Config, c.wf = true ↔
    (1 ≤ c.w ∧ (c.mode = .par → c.w = 8)) ∧ c.nout = 8 ∧ 1 ≤ c.nin ∧ Config.minSettle ≤ c.tSettle ∧
      (c.mode = .par → (c.outPins ++ c.inPins).Nodup) ∧
      (c.mode = .bus → (c.inPins ++ [c.dataPin, c.clockPin]).Nodup)) ∧
  ∀ (i : Instr) (s : State), s.cur.cfg.wf = false → ∃ r, exec i s = .refused r

/-- R63: the eight keys of the opcode map, each written out. (The codes are D8.) -/
def Obligations.OpcodeMapKeys : Prop :=
  ∀ v : Int,
    decodeKey 0b000#3 v = .openP ∧ decodeKey 0b001#3 v = .txP v ∧ decodeKey 0b010#3 v = .rxP ∧
    decodeKey 0b011#3 v = .closeP ∧ decodeKey 0b100#3 v = .openB ∧ decodeKey 0b101#3 v = .txB v ∧
    decodeKey 0b110#3 v = .rxB ∧ decodeKey 0b111#3 v = .closeB

/-- R62: `K[2]` is the configuration's MODE and `K[1:0]` is CMD, so a host reaches only its own transport, and
nothing of what it presents is lost. (The key is D8.) -/
def Obligations.DecodeKeepsModeAndCode : Prop :=
  ∀ (m : Mode) (cmd : CmdCode) (v : Int),
    (decode m cmd v).mode = m ∧ encodeCmd (decode m cmd v) = cmd ∧
      ∀ x, (decode m cmd v).operand = some x → x = v

/-- Decoding what the encoder writes gives every well-formed command back, at the unbounded port and at any finite
two's-complement port that can carry its operand. (The words are D8 and D9, the value of format N is log 6.) -/
def Obligations.DecodeOfEncode : Prop :=
  ∀ (c : Config) (i : Instr), i.wf c = true →
    decode c.mode (encode i).1 (encode i).2 = i ∧
      ∀ n, c.vw = some n → decodePort c.mode (encodePort n i).1 (encodePort n i).2 = i

/-! ### The encoder -/

/-- R75: the minimal representation has no leading 0 except that of 0. -/
def Obligations.BinIsMinimal : Prop :=
  bin 0 = [false] ∧
    ∀ v, 1 ≤ v → (bin v).head? = some true ∧
      bin v = (if v / 2 = 0 then [] else bin (v / 2)) ++ [decide (v % 2 = 1)]

/-- R78: the length law and its consequences. -/
def Obligations.EncodeLength : Prop :=
  ∀ v w, 1 ≤ w →
    (encodeValueBits v w).length = max (blen v) w ∧ w ≤ (encodeValueBits v w).length ∧
    ((encodeValueBits v w).length = w ↔ v < 2 ^ w) ∧
    ((encodeValueBits v w).length = blen v ∧ w < blen v ↔ 2 ^ w ≤ v)

/-- R79: the value law, and so the encoder is injective. -/
def Obligations.EncodeValue : Prop :=
  ∀ v w, 1 ≤ w →
    val (encodeValueBits v w) = v ∧ ∀ u, encodeValueBits u w = encodeValueBits v w → u = v

/-- R76, R77, R80: pad bits at the front and only there; an overflowing value is carried whole; the last element
is the units bit; zero is all pad bits. -/
def Obligations.EncodePadsFront : Prop :=
  ∀ v w, 1 ≤ w →
    (blen v < w → encodeValueBits v w = List.replicate (w - blen v) false ++ bin v) ∧
    (w ≤ blen v → encodeValueBits v w = bin v) ∧
    (encodeValueBits v w).getLast? = some (decide (v % 2 = 1)) ∧
    encodeValueBits 0 w = List.replicate w false

/-- R84 (d), the prefix law: the first `C` bits are the high-order part, the rest the low-order part. -/
def Obligations.EncodePrefix : Prop :=
  ∀ v w c, 1 ≤ w → c ≤ (encodeValueBits v w).length →
    val ((encodeValueBits v w).take c) = v / 2 ^ ((encodeValueBits v w).length - c) ∧
    val ((encodeValueBits v w).drop c) = v % 2 ^ ((encodeValueBits v w).length - c)

/-! ### ERR and the pin calls -/

/-- R26: what `ErrUpdate` leaves, in both modes; nothing but ERR changes. -/
def Obligations.ErrUpdateLeaves : Prop :=
  ∀ (len cap : Nat) (s : State),
    (s.cur.cfg.errMode = .faithful → errUpdate len cap s = s.setErr (some false)) ∧
    (s.cur.cfg.errMode = .corrected → errUpdate len cap s = s.setErr (some (decide (len > cap))))

/-- R42: a `PinCfg` that completes. The level of a pin whose direction does not change is kept (D18's parameter at
its default); of a pin whose direction changes it is lost; no other pin changes. (The effect on the level is
D18.) -/
def Obligations.PinCfgEffect : Prop :=
  ∀ (s : State) (p : PinId) (d : IoDir), (s.answer s.calls).fails = false →
    ∃ t, pinCfg p d s = .done () t ∧ (t.pins.get p).dir = d.dir ∧
      ((s.pins.get p).dir ≠ d.dir → (t.pins.get p).drv = none) ∧
      ((s.pins.get p).dir = d.dir → s.reconfKeepsLevel = true → (t.pins.get p).drv = (s.pins.get p).drv) ∧
      ((s.pins.get p).dir = d.dir → s.reconfKeepsLevel = false → (t.pins.get p).drv = none) ∧
      (∀ q, q ≠ p → t.pins.get q = s.pins.get q) ∧ t.trace = s.trace ++ [.cfg p d] ∧
      t.cur = s.cur ∧ s.SameRest t ∧ t.responses = s.responses ∧ t.calls = s.calls + 1

/-- R43: a `PinWr` that completes drives the pin; on a pin that is no output it has no meaning. (The level is D13,
the refusal U2, the number of calls log 4.) -/
def Obligations.PinWrEffect : Prop :=
  ∀ (s : State) (p : PinId) (b : Bit),
    ((s.pins.get p).dir = .out → (s.answer s.calls).fails = false →
      ∃ t, pinWr p b s = .done () t ∧ t.pins.get p = ⟨.out, some b⟩ ∧
        (∀ q, q ≠ p → t.pins.get q = s.pins.get q) ∧ t.trace = s.trace ++ [.wr p b] ∧
        t.cur = s.cur ∧ s.SameRest t ∧ t.responses = s.responses ∧ t.calls = s.calls + 1) ∧
    ((s.pins.get p).dir ≠ .out → pinWr p b s = .refused (.writeToNonOutput p))

/-- R44: a `PinRd` that completes returns the world's level and changes no pin; of a pin that is no input it has no
meaning. (The level is D14, the refusal U2, the number of calls log 4.) -/
def Obligations.PinRdEffect : Prop :=
  ∀ (s : State) (p : PinId),
    ((s.pins.get p).dir = .inp → (s.answer s.calls).fails = false →
      ∃ t, pinRd p s = .done (s.answer s.calls).level t ∧ t.pins = s.pins ∧
        t.trace = s.trace ++ [.rd p (s.answer s.calls).level] ∧
        t.cur = s.cur ∧ s.SameRest t ∧ t.responses = s.responses ∧ t.calls = s.calls + 1) ∧
    ((s.pins.get p).dir ≠ .inp → pinRd p s = .refused (.readOfNonInput p))

/-- R45: a `PinResetAll` that completes leaves every pin unconfigured and undriven; a second one changes no pin
and is an event again. -/
def Obligations.PinResetAllEffect : Prop :=
  ∀ s : State, s.NoFail 2 →
    ∃ t u, pinResetAll s = .done () t ∧ pinResetAll t = .done () u ∧
      (∀ p, t.pins.get p = ⟨.none, none⟩) ∧ u.pins = t.pins ∧
      t.trace = s.trace ++ [.rstAll] ∧ u.trace = t.trace ++ [.rstAll] ∧
      t.cur = s.cur ∧ s.SameRest t ∧ t.responses = s.responses

/-- R46: `Delay` cannot fail and leaves only its event. (No time: D19.) -/
def Obligations.DelayEffect : Prop :=
  ∀ (s : State) (t : Duration), ∃ u, delay t s = .done () u ∧ u.trace = s.trace ++ [.dl t] ∧
    u.pins = s.pins ∧ u.cur = s.cur ∧ s.SameRest u ∧ u.responses = s.responses ∧ u.calls = s.calls

/-- R47: a failed pin call changes no pin state, appends `Fail(call)` and raises `PinAccessFailure(call, I)`. (No
effect of the failed call: D20; the number of calls is log 4.) -/
def Obligations.FailedPinCall : Prop :=
  ∀ (s : State) (p : PinId) (d : IoDir) (b : Bit), (s.answer s.calls).fails = true →
    pinCfg p d s = .raised (.pinAccessFailure (.cfg p d) s.cur.idx) (s.afterFail (.cfg p d)) ∧
    ((s.pins.get p).dir = .out →
      pinWr p b s = .raised (.pinAccessFailure (.wr p b) s.cur.idx) (s.afterFail (.wr p b))) ∧
    ((s.pins.get p).dir = .inp →
      pinRd p s = .raised (.pinAccessFailure (.rd p) s.cur.idx) (s.afterFail (.rd p))) ∧
    pinResetAll s = .raised (.pinAccessFailure .resetAll s.cur.idx) (s.afterFail .resetAll)

/-! ### OPEN -/

/-- R108, R109: OPEN.P and OPEN.B complete; ERR has no value, LIFE is OPEN, nothing else changes, no event. The
premise on the opened state is R58's: the instance's pins belong to no other open instance. (The form of OPEN is
D11.) -/
def Obligations.OpenCompletes : Prop :=
  ∀ s : State, (s.setLife .opened).openDisjoint = true →
    (s.Ready .par .closed →
      exec .openP s = .next (((s.setErr none).setLife .opened).pushResponse .okay)) ∧
    (s.Ready .bus .closed →
      exec .openB s = .next (((s.setErr none).setLife .opened).pushResponse .okay))

/-- The model's reading of R58 (log 8): an OPEN that would make open instances share a pin has no meaning. -/
def Obligations.OpenRefusesSharedPins : Prop :=
  ∀ s : State, (s.setLife .opened).openDisjoint = false →
    (s.Ready .par .closed → exec .openP s = .refused .sharedPins) ∧
    (s.Ready .bus .closed → exec .openB s = .refused .sharedPins)

/-! ### The parallel transport -/

/-- R87: TX.P of a value of any size completes when no pin call fails: exactly the 16 events in descending index,
ERR by `ErrUpdate(max(blen(v), 8), 8)`, nothing else. (The descending order is D25.) -/
def Obligations.TxPCompletes : Prop :=
  ∀ (s : State) (v : Nat), s.Ready .par .opened → s.NoFail 16 →
    exec (.txP (v : Int)) s =
      .next (((s.perform 16 (txPEvents s.cur.cfg v)).setErr
        (some (errResult s.cur.cfg.errMode (max (blen v) 8) 8))).pushResponse .okay)

/-- R117 for TX.P: the first failing pin call, number `n`, ends it there: the events before it, `Fail`, the report
with index `7 - n / 2`; ERR and LIFE as before. (The report is D30.) -/
def Obligations.TxPStopsAtFailedCall : Prop :=
  ∀ (s : State) (v n : Nat), s.Ready .par .opened → n < 16 → s.FirstFail n →
    ∃ es c, cutAtCall n (txPEvents s.cur.cfg v) = some (es, c) ∧
      exec (.txP (v : Int)) s =
        .next ((s.perform (n + 1) es).pushResponse ⟨.pinAccessFailure c (some (7 - n / 2)), none⟩)

/-- R88: after a TX.P of a value below 256 every output pin is an output at its bit of the value. (`Level` is D13.) -/
def Obligations.TxPFinalLevels : Prop :=
  ∀ (s : State) (v : Nat), s.Ready .par .opened → s.NoFail 16 → v < 256 →
    ∃ t, exec (.txP (v : Int)) s = .next t ∧
      ∀ (i : Nat) (p : PinId), s.cur.cfg.outPins[i]? = some p →
        (t.pins.get p).dir = .out ∧ t.level p = some (decide (v / 2 ^ (7 - i) % 2 = 1)) ∧
          t.level p = (encodeValueBits v 8)[i]?

/-- R89: after a TX.P of an overflowing value the pins show its eight most significant bits. (Derived in the spec
from R87, R77, R84.) -/
def Obligations.TxPOverflowLevels : Prop :=
  ∀ (s : State) (v : Nat), s.Ready .par .opened → s.NoFail 16 → 256 ≤ v →
    ∃ (t : State) (r : BitReg), exec (.txP (v : Int)) s = .next t ∧ r.length = 8 ∧ val r = v / 2 ^ (blen v - 8) ∧
      (∀ (i : Nat) (p : PinId), s.cur.cfg.outPins[i]? = some p → t.level p = r[i]?) ∧
      (s.cur.cfg.errMode = .faithful → t.cur.err = some false) ∧
      (s.cur.cfg.errMode = .corrected → t.cur.err = some true)

/-! ### The sample -/

/-- R91, R92, R102: RX.P and RX.B complete when no pin call fails: the pins in ascending index, each configured and
then read, the result exactly the levels the world presented at the reads; ERR as it was. (The interleaving is
D26, the levels D14 and log 4.) -/
def Obligations.RxCompletes : Prop :=
  ∀ s : State, s.NoFail (2 * s.cur.cfg.nin) →
    ∀ r, r = s.sampleLevels s.cur.cfg.nin →
      (s.Ready .par .opened → exec .rxP s =
        .next ((s.perform (2 * s.cur.cfg.nin) (sampleEvents s.cur.cfg r)).pushResponse ⟨.ok, some r⟩)) ∧
      (s.Ready .bus .opened → exec .rxB s =
        .next ((s.perform (2 * s.cur.cfg.nin) (sampleEvents s.cur.cfg r)).pushResponse ⟨.ok, some r⟩)) ∧
      r.length = s.cur.cfg.nin ∧
      ∀ i, i < s.cur.cfg.nin → r[i]? = some (s.answer (s.calls + 2 * i + 1)).level

/-- R92, R102, R117: a sample whose pin call `n` fails first ends there, without a result; ERR as it was. (The
interleaving is D26, the report D30.) -/
def Obligations.RxStopsAtFailedCall : Prop :=
  ∀ (s : State) (n : Nat), n < 2 * s.cur.cfg.nin → s.FirstFail n →
    ∃ es c, cutAtCall n (sampleEvents s.cur.cfg (s.sampleLevels s.cur.cfg.nin)) = some (es, c) ∧
      (s.Ready .par .opened → exec .rxP s =
        .next ((s.perform (n + 1) es).pushResponse ⟨.pinAccessFailure c (some (n / 2)), none⟩)) ∧
      (s.Ready .bus .opened → exec .rxB s =
        .next ((s.perform (n + 1) es).pushResponse ⟨.pinAccessFailure c (some (n / 2)), none⟩))

/-- R92, R102: after a sample every pin of the bank is an input; every other pin, the outputs and the data and clock
pins among them, keeps direction and level. (The frame is the model's reading of R92.) -/
def Obligations.RxLeavesInputs : Prop :=
  ∀ (i : Instr) (s : State), i.kind = .samples → s.Ready i.mode .opened → s.NoFail (2 * s.cur.cfg.nin) →
    ∃ t, exec i s = .next t ∧
      (∀ p ∈ s.cur.cfg.inPins, (t.pins.get p).dir = .inp) ∧
      ∀ p, p ∉ s.cur.cfg.inPins → t.pins.get p = s.pins.get p

/-! ### The bus transport -/

/-- R95, R96: TX.B of a value of any size completes when no pin call fails: exactly `W` bit-cycles of seven events,
ERR by `ErrUpdate(max(blen(v), W), W)`, nothing else. (The order of the two configures is D27.) -/
def Obligations.TxBCompletes : Prop :=
  ∀ (s : State) (v : Nat), s.Ready .bus .opened → s.NoFail (5 * s.cur.cfg.w) →
    exec (.txB (v : Int)) s =
      .next (((s.perform (5 * s.cur.cfg.w) (busEvents s.cur.cfg v)).setErr
        (some (errResult s.cur.cfg.errMode (max (blen v) s.cur.cfg.w) s.cur.cfg.w))).pushResponse .okay)

/-- R117 for TX.B: the first failing pin call, number `n`, ends it there; the report's index is the bit-cycle `n /
5`; ERR and LIFE as before. (The report is D30.) -/
def Obligations.TxBStopsAtFailedCall : Prop :=
  ∀ (s : State) (v n : Nat), s.Ready .bus .opened → n < 5 * s.cur.cfg.w → s.FirstFail n →
    ∃ es c, cutAtCall n (busEvents s.cur.cfg v) = some (es, c) ∧
      exec (.txB (v : Int)) s =
        .next ((s.perform (n + 1) es).pushResponse ⟨.pinAccessFailure c (some (n / 5)), none⟩)

/-- R99, R100: a TX.B ends OK after exactly `W` clock pulses, having written to the data pin the first `W` bits of the
register, in order: the value itself when it fits, else its `W` most significant bits; the drop is silent. (The `W`
pulses for every value and every `W` are R99's own derivation.) -/
def Obligations.TxBPulsesAndData : Prop :=
  ∀ (s : State) (v : Nat), s.Ready .bus .opened → s.NoFail (5 * s.cur.cfg.w) →
    ∃ t es, exec (.txB (v : Int)) s = .next t ∧ t.trace = s.trace ++ es ∧
      clockPulses s.cur.cfg.clockPin es = s.cur.cfg.w ∧
      writesTo s.cur.cfg.dataPin es = (encodeValueBits v s.cur.cfg.w).take s.cur.cfg.w ∧
      (v < 2 ^ s.cur.cfg.w → val (writesTo s.cur.cfg.dataPin es) = v) ∧
      (2 ^ s.cur.cfg.w ≤ v →
        val (writesTo s.cur.cfg.dataPin es) = v / 2 ^ (blen v - s.cur.cfg.w)) ∧
      t.responses.getLast? = some .okay ∧ (s.cur.cfg.errMode = .faithful → t.cur.err = some false)

/-- R101: the pins after a TX.B; no other pin changes. (Derived in the spec from R95, R97, R43.) -/
def Obligations.TxBFinalLevels : Prop :=
  ∀ (s : State) (v : Nat), s.Ready .bus .opened → s.NoFail (5 * s.cur.cfg.w) →
    ∃ t, exec (.txB (v : Int)) s = .next t ∧
      t.level s.cur.cfg.dataPin = (encodeValueBits v s.cur.cfg.w)[s.cur.cfg.w - 1]? ∧
      t.level s.cur.cfg.clockPin = some false ∧
      (v < 2 ^ s.cur.cfg.w → t.level s.cur.cfg.dataPin = some (decide (v % 2 = 1))) ∧
      ∀ p, p ≠ s.cur.cfg.dataPin → p ≠ s.cur.cfg.clockPin → t.pins.get p = s.pins.get p

/-- R98: a whole TX.B takes at least `2 * W * T_SETTLE`, the sum of its delays. (Derived in the spec from R96, R97.) -/
def Obligations.TxBLeastTime : Prop :=
  ∀ (s : State) (v : Nat), s.Ready .bus .opened → s.NoFail (5 * s.cur.cfg.w) →
    ∃ t es, exec (.txB (v : Int)) s = .next t ∧ t.trace = s.trace ++ es ∧
      leastTime es = 2 * s.cur.cfg.w * s.cur.cfg.tSettle ∧ 2 * s.cur.cfg.w * Config.minSettle ≤ leastTime es

/-- R104: the first configure of the clock pin leaves it without a level; after a bit-cycle it is 0 at the next data
write (D18's parameter at its default), and without a level where a platform loses it. (Derived in the spec from
R95, R42, D18.) -/
def Obligations.ClockLevelAroundBitCycles : Prop :=
  ∀ (c : Config) (ps : Pins) (b : Bit) (keeps : Bool), c.dataPin ≠ c.clockPin →
    ((ps.get c.clockPin).dir ≠ .out →
      ((ps.replay keeps [.cfg c.dataPin .out, .cfg c.clockPin .out]).get c.clockPin).drv = none) ∧
    (ps.replay keeps (bitCycleEvents c b ++ [.cfg c.dataPin .out, .cfg c.clockPin .out])).get c.clockPin =
      ⟨.out, if keeps then some false else none⟩

/-! ### CLOSE -/

/-- R110: CLOSE.P completes: the one event `RstAll`, ERR without a value, LIFE CLOSED, every pin released. (The form
of CLOSE is D11.) -/
def Obligations.ClosePCompletes : Prop :=
  ∀ s : State, s.Ready .par .opened → s.NoFail 1 →
    exec .closeP s = .next ((((s.perform 1 [.rstAll]).setErr none).setLife .closed).pushResponse .okay) ∧
    ∀ p, (s.perform 1 [.rstAll]).pins.get p = ⟨.none, none⟩

/-- R110: if the release fails, LIFE stays OPEN, ERR and the pins are unchanged. (That LIFE stays is D31.) -/
def Obligations.ClosePFails : Prop :=
  ∀ s : State, s.Ready .par .opened → s.FirstFail 0 →
    exec .closeP s =
      .next ((s.perform 1 [.fail .resetAll]).pushResponse ⟨.pinAccessFailure .resetAll none, none⟩)

/-- R111: CLOSE.B completes: `W` bit-cycles with data 0, then `RstAll`; ERR without a value, LIFE CLOSED. (The form
of CLOSE is D11.) -/
def Obligations.CloseBCompletes : Prop :=
  ∀ s : State, s.Ready .bus .opened → s.NoFail (5 * s.cur.cfg.w + 1) →
    exec .closeB s =
      .next ((((s.perform (5 * s.cur.cfg.w + 1)
        ((List.replicate s.cur.cfg.w false).flatMap (bitCycleEvents s.cur.cfg) ++ [.rstAll])).setErr none).setLife
          .closed).pushResponse .okay)

/-- R111: a failure inside the teardown transmit keeps ERR; a failure of the release comes after its `ErrUpdate`, so
ERR is 0. In both cases LIFE stays OPEN. (The abort is D28, the report D30.) -/
def Obligations.CloseBFails : Prop :=
  ∀ s : State, s.Ready .bus .opened →
    (∀ n, n < 5 * s.cur.cfg.w → s.FirstFail n →
      ∃ es c, cutAtCall n (busEvents s.cur.cfg 0) = some (es, c) ∧
        exec .closeB s =
          .next ((s.perform (n + 1) es).pushResponse ⟨.pinAccessFailure c (some (n / 5)), none⟩)) ∧
    (s.FirstFail (5 * s.cur.cfg.w) →
      exec .closeB s =
        .next (((s.perform (5 * s.cur.cfg.w + 1) (busEvents s.cur.cfg 0 ++ [.fail .resetAll])).setErr
          (some false)).pushResponse ⟨.pinAccessFailure .resetAll none, none⟩))

/-- R149: a CLOSE that ends OK releases every pin of the platform, while every other instance keeps its block state
and stays as open as it was. (Several instances are D33, log 7.) -/
def Obligations.CloseReleasesAllPins : Prop :=
  ∀ (i : Instr) (s t : State), i.kind = .closes → exec i s = .next t → t.cur.life = .closed →
    (s.cur.life = .opened → ∀ p, t.pins.get p = ⟨.none, none⟩ ∧ t.level p = none) ∧
    t.before = s.before ∧ t.after = s.after

/-- R112: after an OK CLOSE the instance can be opened again and is as a newly constructed one of the same
configuration. (Re-opening is D29.) -/
def Obligations.ReopenAfterClose : Prop :=
  ∀ (m : Mode) (c o : Instr) (s : State), c.kind = .closes → c.mode = m → o.kind = .opens → o.mode = m →
    s.Ready m .opened → s.NoFail (c.callBound s.cur.cfg) →
    ∃ t u, exec c s = .next t ∧ t.cur = Block.initial s.cur.cfg ∧ exec o t = .next u ∧
      u.cur = { Block.initial s.cur.cfg with life := .opened } ∧ u.trace = t.trace ∧ u.pins = t.pins

/-! ### Faults -/

/-- R66, R118: a command in the wrong lifecycle state ends with `LifecycleViolation(life)`; nothing else happens,
whatever its operand (R121). (The fault is D22.) -/
def Obligations.LifecycleViolationOnly : Prop :=
  ∀ (i : Instr) (s : State), s.Supported i.mode → s.cur.Idle → s.cur.life ≠ i.legalLife →
    exec i s = .next (s.pushResponse ⟨.lifecycleViolation s.cur.life, none⟩)

/-- R116: a negative operand ends TX with `InvalidInput(v)`, code 1, before anything else happens; CLOSE.B cannot
raise it. -/
def Obligations.InvalidInputOnly : Prop :=
  ∀ s : State,
    (∀ v : Int, v < 0 → Status.code (.invalidInput v) = 1#2 ∧
      (s.Ready .par .opened → exec (.txP v) s = .next (s.pushResponse ⟨.invalidInput v, none⟩)) ∧
      (s.Ready .bus .opened → exec (.txB v) s = .next (s.pushResponse ⟨.invalidInput v, none⟩))) ∧
    ∀ t, exec .closeB s = .next t → ∃ r, t.responses = s.responses ++ [r] ∧ ∀ v, r.status ≠ .invalidInput v

/-- R114: which command raises which status, and when; the codes. (The codes and reports are D30.) -/
def Obligations.StatusTable : Prop :=
  (∀ (i : Instr) (s t : State), exec i s = .next t →
    ∃ r, t.responses = s.responses ++ [r] ∧
      (∀ v, r.status = .invalidInput v → v < 0 ∧ (i = .txP v ∨ i = .txB v)) ∧
      (∀ c n, r.status = .pinAccessFailure c n → i.kind ≠ .opens ∧ t.trace.getLast? = some (.fail c)) ∧
      (∀ l, r.status = .lifecycleViolation l ↔ (l = s.cur.life ∧ s.cur.life ≠ i.legalLife))) ∧
  (Status.code .ok = 0#2 ∧ (∀ v, Status.code (.invalidInput v) = 1#2) ∧
    (∀ c n, Status.code (.pinAccessFailure c n) = 2#2) ∧ ∀ l, Status.code (.lifecycleViolation l) = 3#2)

/-- R73, R30: every command ends with exactly one response, and it holds a result exactly for a successful RX. (The
response is D24; the list of responses is log 11.) -/
def Obligations.OneResponse : Prop :=
  ∀ (i : Instr) (s t : State), exec i s = .next t →
    ∃ r, t.responses = s.responses ++ [r] ∧ (r.result ≠ none ↔ i.kind = .samples ∧ r.status = .ok)

/-! ### Frames and whole-machine rules -/

/-- What no command changes: the other instances, the configuration, the platform's parameters, the host's further
actions and reads. The trace only grows, and the pins change only as the new events say. (The fields of the
model's own are logs 4, 5, 11.) -/
def Obligations.CommandFrame : Prop :=
  ∀ (i : Instr) (s t : State), exec i s = .next t →
    s.SameRest t ∧
      ∃ es, t.trace = s.trace ++ es ∧ t.pins = s.pins.replay s.reconfKeepsLevel es

/-- Every pin a command does not touch keeps its direction and level, also when a pin call fails; only a CLOSE that
ends OK (it finds LIFE OPEN and leaves it CLOSED) releases the pins of all. (R41 and the commands' rules
together.) -/
def Obligations.PinFrame : Prop :=
  ∀ (i : Instr) (s t : State), exec i s = .next t →
    ¬ (i.kind = .closes ∧ s.cur.life = .opened ∧ t.cur.life = .closed) →
      ∀ p, p ∉ i.touches s.cur.cfg → t.pins.get p = s.pins.get p

/-- R24: LIFE is OPEN after a successful OPEN, CLOSED after a successful CLOSE, else as before. (LIFE is D11.) -/
def Obligations.LifeFrame : Prop :=
  ∀ (i : Instr) (s t : State), exec i s = .next t →
    ∃ r, t.responses = s.responses ++ [r] ∧
      (r.status = .ok → i.kind = .opens → t.cur.life = .opened) ∧
      (r.status = .ok → i.kind = .closes → t.cur.life = .closed) ∧
      (r.status ≠ .ok ∨ i.kind = .transmits ∨ i.kind = .samples → t.cur.life = s.cur.life)

/-- R25: ERR is written only by a completed transmit, by the teardown transmit of CLOSE.B, and set to no value by
OPEN and CLOSE; else it is as before. (OPEN and CLOSE: D11.) -/
def Obligations.ErrFrame : Prop :=
  ∀ (i : Instr) (s t : State), exec i s = .next t →
    ∃ r, t.responses = s.responses ++ [r] ∧
      (i.kind = .samples → t.cur.err = s.cur.err) ∧
      (i.kind = .transmits → r.status ≠ .ok → t.cur.err = s.cur.err) ∧
      (i.kind = .opens ∨ i.kind = .closes → r.status = .ok → t.cur.err = none) ∧
      (i.kind = .opens ∨ i = .closeP → r.status ≠ .ok → t.cur.err = s.cur.err) ∧
      (i = .closeB → r.status ≠ .ok → t.cur.err = s.cur.err ∨ t.cur.err = some false)

/-- R145, R115: after a TX that ends OK, ERR is 0 in FAITHFUL mode whatever the value, and in CORRECTED mode it says
whether the value overflowed the width. (CORRECTED is the spec's alternative (b), D7.) -/
def Obligations.ErrAfterTransmit : Prop :=
  ∀ (i : Instr) (s t : State) (v : Nat), i = .txP (v : Int) ∨ i = .txB (v : Int) → exec i s = .next t →
    ∀ r, t.responses = s.responses ++ [r] → r.status = .ok →
      (s.cur.cfg.errMode = .faithful → t.cur.err = some false) ∧
      (s.cur.cfg.errMode = .corrected → t.cur.err = some (decide (2 ^ s.cur.cfg.w ≤ v)))

/-- R39, R124: at its end, normal or fault, a command leaves the instance not busy, with no register and no index.
(R39 is the spec's own derivation.) -/
def Obligations.EndsIdle : Prop :=
  ∀ (i : Instr) (s t : State), exec i s = .next t →
    t.cur.busy = false ∧ t.cur.reg = none ∧ t.cur.idx = none

/-- R60, R119: no command ever violates a direction condition or indexes outside the register, in any state, and
none ends in a fault of the machine. (Both rules are the spec's own derivations.) -/
def Obligations.NoDirectionViolation : Prop :=
  ∀ (i : Instr) (s : State),
    (∀ p, exec i s ≠ .refused (.writeToNonOutput p)) ∧ (∀ p, exec i s ≠ .refused (.readOfNonInput p)) ∧
      exec i s ≠ .refused .indexOutOfRange ∧ ∀ f, exec i s ≠ .fault f

/-- Every command ends with a next state in every supported state, whatever its operand and whatever the platform
answers; the one exception is an OPEN that would share pins (log 8). (Free answers of the platform: log 4.) -/
def Obligations.SupportedCommandsEnd : Prop :=
  ∀ (i : Instr) (s : State), s.Supported i.mode →
    (i.kind = .opens → s.cur.life = .closed → (s.setLife .opened).openDisjoint = true) →
      ∃ t, exec i s = .next t

/-- Outside the supported states a command is refused, by the name of the missing premise (R16, R58, R62, R138,
R144). (The order of the refusals is log 8.) -/
def Obligations.UnsupportedIsRefused : Prop :=
  ∀ (i : Instr) (s : State), ¬ s.Supported i.mode →
    ∃ r, exec i s = .refused r ∧
      (r = .noPinInterface ∧ s.numbering = none ∨
       r = .commandWhileBusy ∧ (∃ b ∈ s.blocks, b.busy = true) ∨
       r = .wrongTransport ∧ s.cur.cfg.mode ≠ i.mode ∨
       r = .illFormedConfig ∧ s.cur.cfg.wf = false ∨
       r = .sharedPins ∧ s.openDisjoint = false)

/-- R93, R103: how many pin calls a command makes at most. (Both rules are the spec's own derivations.) -/
def Obligations.PinCallBound : Prop :=
  ∀ (i : Instr) (s t : State), exec i s = .next t →
    s.calls ≤ t.calls ∧ t.calls ≤ s.calls + i.callBound s.cur.cfg

/-! ### The host, the step, reset -/

/-- A step of the host addresses the instance at the port it names: the instance there becomes the addressed one, the
action is consumed, and nothing else changes. A command is decoded with that instance's own MODE and executed (R61,
R62), a view is read (R35). A port without an instance is refused. (The key is D8, the ports and the refusal are
log 7, reads as actions log 12.) -/
def Obligations.StepRunsDecoded : Prop :=
  ∀ (s : State) (port : Nat) (cmd : CmdCode) (v : Int) (view : View) (rest : List HostAction),
    (∀ b, s.blocks[port]? = some b → ∃ t : State,
      t.cur = b ∧ t.before.length = port ∧ t.blocks = s.blocks ∧ t.pins = s.pins ∧ t.trace = s.trace ∧
        t.numbering = s.numbering ∧ t.reconfKeepsLevel = s.reconfKeepsLevel ∧ t.calls = s.calls ∧
        t.world = s.world ∧ t.host = rest ∧ t.responses = s.responses ∧ t.readouts = s.readouts ∧
        (s.host = .command port cmd v :: rest → step s = exec (decode b.cfg.mode cmd v) t) ∧
        (s.host = .read port view :: rest → step s = readView view t)) ∧
    (s.blocks[port]? = none → s.host = .command port cmd v :: rest ∨ s.host = .read port view :: rest →
      step s = .refused .noSuchInstance)

/-- The model's idle step (R136, log 5): while the host presents nothing, nothing changes. -/
def Obligations.IdleStep : Prop := ∀ s : State, s.host = [] → step s = .next s

/-- R35: what a read of every view field delivers; nothing else changes. `ERR` is read only while not busy (log 12), and
is a fault where it has no value (U1). Where R16 or R58 gives the system no meaning every read is refused (log 8). A step
whose action is a read of the addressed instance is that read. (The views are D16, reads as actions of the host are
log 12.) -/
def Obligations.ReadViews : Prop :=
  (∀ s : State, s.cur.cfg.wf = true → s.openDisjoint = true →
    readView .mode s = .next (s.pushReadout (.mode s.cur.cfg.mode)) ∧
    readView .w s = .next (s.pushReadout (.nat s.cur.cfg.w)) ∧
    readView .nin s = .next (s.pushReadout (.nat s.cur.cfg.inPins.length)) ∧
    readView .nout s = .next (s.pushReadout (.nat s.cur.cfg.outPins.length)) ∧
    readView .errMode s = .next (s.pushReadout (.errMode s.cur.cfg.errMode)) ∧
    readView .outPins s = .next (s.pushReadout (.pins s.cur.cfg.outPins)) ∧
    readView .inPins s = .next (s.pushReadout (.pins s.cur.cfg.inPins)) ∧
    readView .dataPin s = .next (s.pushReadout (.pin s.cur.cfg.dataPin)) ∧
    readView .clockPin s = .next (s.pushReadout (.pin s.cur.cfg.clockPin)) ∧
    readView .tSettle s = .next (s.pushReadout (.duration s.cur.cfg.tSettle)) ∧
    readView .life s = .next (s.pushReadout (.life s.cur.life)) ∧
    readView .busy s = .next (s.pushReadout (.busy s.cur.busy)) ∧
    (s.cur.busy = false → ∀ b, s.cur.err = some b → readView .err s = .next (s.pushReadout (.err b))) ∧
    (s.cur.busy = false → s.cur.err = none → readView .err s = .fault .errUnspecified) ∧
    (s.cur.busy = true → readView .err s = .refused .errReadWhileBusy)) ∧
  (∀ (s : State) (x : View), s.cur.cfg.wf = false → readView x s = .refused .illFormedConfig) ∧
  (∀ (s : State) (x : View), s.cur.cfg.wf = true → s.openDisjoint = false → readView x s = .refused .sharedPins) ∧
  ∀ (s : State) (x : View) (rest : List HostAction), s.host = .read s.before.length x :: rest →
    step s = readView x (s.setHost rest)

/-- R138, R113: the PinInterface is constructed once; nothing else changes; a command before that has no meaning.
(The refusal of a second construction is the model's reading of "once", log 15.) -/
def Obligations.ConstructOnce : Prop :=
  ∀ (s : State) (n : Nat) (rest : List HostAction), s.host = .construct n :: rest →
    (s.numbering = none → step s = .next { s with numbering := some n, host := rest } ∧
      ∀ i : Instr, exec i s = .refused .noPinInterface) ∧
    (s.numbering ≠ none → step s = .refused .pinInterfaceExists)

/-- R58 (b), log 20: another user's pin call that is carried out is one event of the trace and changes the pins as
that event says, so no pin of an open instance but by `PinResetAll`; no instance, response or read changes. -/
def Obligations.OtherUserFrame : Prop :=
  ∀ (s t : State) (c : PinCall) (rest : List HostAction), s.host = .otherUser c :: rest → step s = .next t →
    t.blocks = s.blocks ∧ t.responses = s.responses ∧ t.readouts = s.readouts ∧
      (∃ e, (e.call = some c ∨ e = .fail c) ∧ t.trace = s.trace ++ [e] ∧
        t.pins = s.pins.replay s.reconfKeepsLevel [e]) ∧
      (c ≠ .resetAll → ∀ d ∈ s.openConfigs, ∀ p ∈ d.pins, t.pins.get p = s.pins.get p)

/-- R40, R135: the state after reset. (The configuration and the number of instances are the model's, logs 1, 7.)
(The values are D17.) -/
def Obligations.ResetValues : Prop :=
  State.reset.cur.life = .closed ∧ State.reset.cur.err = none ∧ State.reset.cur.busy = false ∧
    State.reset.cur.reg = none ∧ State.reset.cur.idx = none ∧
    (∀ p, State.reset.pins.get p = ⟨.none, none⟩) ∧ State.reset.trace = []

/-- R40, R137: the step of a reset between commands leaves every instance as after reset with its own configuration,
every pin released and the trace empty, the action consumed; during a command it has no meaning (U9), nor with an
ill-formed instance (R16) or open instances that share a pin (R58), log 8. (Reset is D17; what it keeps is log 18.) -/
def Obligations.ResetBetweenCommands : Prop :=
  ∀ (s : State) (rest : List HostAction), s.host = .reset :: rest →
    ((∀ b ∈ s.blocks, b.busy = false) → (∀ b ∈ s.blocks, b.cfg.wf = true) → s.openDisjoint = true →
      ∃ t, step s = .next t ∧
        t.blocks = s.blocks.map (fun b => Block.initial b.cfg) ∧ t.before.length = s.before.length ∧
        (∀ p, t.pins.get p = ⟨.none, none⟩) ∧ t.trace = [] ∧ t.host = rest ∧
        t.numbering = s.numbering ∧ t.reconfKeepsLevel = s.reconfKeepsLevel ∧ t.calls = s.calls ∧
        t.world = s.world ∧ t.responses = s.responses ∧ t.readouts = s.readouts) ∧
    ((∃ b ∈ s.blocks, b.busy = true) → step s = .refused .resetWhileBusy) ∧
    ((∀ b ∈ s.blocks, b.busy = false) → (∃ b ∈ s.blocks, b.cfg.wf = false) → step s = .refused .illFormedConfig) ∧
    ((∀ b ∈ s.blocks, b.busy = false) → (∀ b ∈ s.blocks, b.cfg.wf = true) → s.openDisjoint = false →
      step s = .refused .sharedPins)

/-- The invariant holds after reset. -/
def Obligations.ResetHasInvariant : Prop := State.reset.Inv

/-- Every step of the host, whatever it does, keeps the invariant: the pin list canonical, levels only on outputs,
every instance idle between steps with no ERR while closed, no ERR 1 in FAITHFUL mode, open instances disjoint, and
the pins exactly what the trace since reset has done. -/
def Obligations.StepKeepsInvariant : Prop :=
  ∀ s t : State, s.Inv → step s = .next t → t.Inv
end

