-- ==== Sys2Proof/Laws/Encoder.lean ====
section
/-! SUPPORT. The encoder (40_bitcodec.md): the recursion of `digits`, lengths, values of registers. -/

namespace Sys2Proof.Machine

/-- More fuel than the number changes nothing. -/
theorem digitsFuel_eq {f g n : Nat} (hf : n ≤ f) (hg : n ≤ g) : digitsFuel f n = digitsFuel g n := by
  induction f generalizing g n with
  | zero =>
    obtain rfl : n = 0 := Nat.le_zero.1 hf
    cases g <;> rfl
  | succ f ih =>
    cases g with
    | zero =>
      obtain rfl : n = 0 := Nat.le_zero.1 hg
      rfl
    | succ g =>
      simp only [digitsFuel]
      split
      · rfl
      · rw [ih (n := n / 2) (g := g) (by omega) (by omega)]

@[simp] theorem digits_zero : digits 0 = [] := rfl

/-- The normative recursion of R21. -/
theorem digits_step {n : Nat} (h : 1 ≤ n) : digits n = digits (n / 2) ++ [decide (n % 2 = 1)] := by
  unfold digits
  obtain ⟨m, rfl⟩ : ∃ m, n = m + 1 := ⟨n - 1, by omega⟩
  rw [digitsFuel, if_neg (by omega), digitsFuel_eq (n := (m + 1) / 2) (f := m) (by omega) (Nat.le_refl _)]

@[simp] theorem val_nil : val [] = 0 := rfl

/-- Appending a low-order bit doubles the value and adds the bit. -/
theorem val_append_bit (r : BitReg) (b : Bit) : val (r ++ [b]) = 2 * val r + b.toNat := by
  simp [val, List.foldl_append]

/-- The value of a register split in two (R19). -/
theorem val_append (r s : BitReg) : val (r ++ s) = val r * 2 ^ s.length + val s := by
  induction s using List.reverseRecOn with
  | nil => simp
  | append_singleton s b ih =>
    rw [← List.append_assoc, val_append_bit, val_append_bit, ih, List.length_append, List.length_singleton,
      pow_succ]
    ring

/-- Pad bits add no value. -/
@[simp] theorem val_replicate_false (n : Nat) : val (List.replicate n false) = 0 := by
  induction n with
  | zero => rfl
  | succ n ih => rw [List.replicate_succ', val_append_bit, ih]; rfl

/-- A register of length `L` has a value below `2 ^ L`. -/
theorem val_lt (r : BitReg) : val r < 2 ^ r.length := by
  induction r using List.reverseRecOn with
  | nil => simp
  | append_singleton r b ih =>
    rw [val_append_bit, List.length_append, List.length_singleton, pow_succ]
    cases b <;> simp <;> omega

theorem val_digits (n : Nat) : val (digits n) = n := by
  induction n using Nat.strongRecOn with
  | ind n ih =>
    rcases Nat.eq_zero_or_pos n with rfl | hn
    · rfl
    · rw [digits_step hn, val_append_bit, ih (n / 2) (by omega)]
      rcases Nat.mod_two_eq_zero_or_one n with h | h <;> simp [h] <;> omega

/-- `val(bin(v)) = v` (R79). -/
theorem val_bin (v : Nat) : val (bin v) = v := by
  unfold bin
  split
  · next h => subst h; rfl
  · exact val_digits v

/-- The digits of `n` fit `k` places exactly when `n < 2 ^ k`. -/
theorem length_digits_le_iff (n k : Nat) : (digits n).length ≤ k ↔ n < 2 ^ k := by
  induction k generalizing n with
  | zero =>
    rcases Nat.eq_zero_or_pos n with rfl | hn
    · simp
    · rw [digits_step hn]; simp; omega
  | succ k ih =>
    rcases Nat.eq_zero_or_pos n with rfl | hn
    · simp
    · rw [digits_step hn, List.length_append, List.length_singleton, Nat.add_le_add_iff_right, ih, pow_succ]
      omega

theorem one_le_blen (v : Nat) : 1 ≤ blen v := by
  unfold blen bin
  split
  · simp
  · next h => rw [digits_step (by omega)]; simp

/-- `blen(v) <= W` exactly when `v < 2 ^ W`, for `W >= 1` (R78). -/
theorem blen_le_iff {w : Nat} (hw : 1 ≤ w) (v : Nat) : blen v ≤ w ↔ v < 2 ^ w := by
  unfold blen bin
  split
  · next h => subst h; simpa using hw
  · exact length_digits_le_iff v w

/-- The length of an encoded value, by cases (R74). -/
theorem length_encode (v w : Nat) : (encodeValueBits v w).length = max (blen v) w := by
  unfold encodeValueBits blen
  dsimp only
  split
  · simp; omega
  · omega

/-- Padding changes no value and nothing is dropped (R76, R77). -/
theorem val_encode (v w : Nat) : val (encodeValueBits v w) = v := by
  unfold encodeValueBits
  dsimp only
  split
  · rw [val_append, val_replicate_false, Nat.zero_mul, Nat.zero_add, val_bin]
  · exact val_bin v

/-- `Encode(0, W)` is all pad bits (R80). -/
theorem encode_zero {w : Nat} (hw : 1 ≤ w) : encodeValueBits 0 w = List.replicate w false := by
  have hb : bin 0 = [false] := rfl
  unfold encodeValueBits
  rw [hb]
  dsimp only [List.length_singleton]
  split
  · next h =>
    rw [← List.replicate_succ' (n := w - 1)]
    congr 1
    omega
  · next h =>
    obtain rfl : w = 1 := by omega
    rfl

/-- The first `c` bits of a register have the value without the low-order bits, the rest has those (R84 d). -/
theorem val_take_drop (r : BitReg) (c : Nat) :
    val (r.take c) = val r / 2 ^ (r.length - c) ∧ val (r.drop c) = val r % 2 ^ (r.length - c) := by
  have h := val_append (r.take c) (r.drop c)
  rw [List.take_append_drop, List.length_drop] at h
  have hlt := val_lt (r.drop c)
  rw [List.length_drop] at hlt
  have hpos : 0 < 2 ^ (r.length - c) := Nat.pos_of_ne_zero (by positivity)
  rw [h]
  constructor
  · rw [Nat.mul_comm, Nat.mul_add_div hpos, Nat.div_eq_of_lt hlt, Nat.add_zero]
  · rw [Nat.mul_comm, Nat.mul_add_mod, Nat.mod_eq_of_lt hlt]

end Sys2Proof.Machine
end

