-- ==== Sys2Proof/Laws/Pins.lean ====
section
/-! SUPPORT. The pin space: reading after a write, the canonical form, equal readings are equal data. -/

namespace Sys2Proof.Machine

@[simp] theorem Pins.get_nil (p : PinId) : Pins.get [] p = PinCell.initial := rfl

theorem Pins.get_entry (q : PinId) (c : PinCell) (rest : Pins) (p : PinId) :
    Pins.get ((q, c) :: rest) p = if p = q then c else Pins.get rest p := rfl

/-- Below every listed pin nothing is listed. -/
theorem Pins.get_of_lt {ps : Pins} {p : PinId} (h : ∀ e ∈ ps, p < e.1) :
    ps.get p = PinCell.initial := by
  induction ps with
  | nil => rfl
  | cons e rest ih =>
    obtain ⟨q, c⟩ := e
    have hq : p < q := h (q, c) List.mem_cons_self
    rw [Pins.get_entry, if_neg (Nat.ne_of_lt hq)]
    exact ih fun e he => h e (List.mem_cons_of_mem _ he)

/-- What the canonical form says of a listed entry and the rest. -/
theorem Pins.wf_entry {p : PinId} {c : PinCell} {rest : Pins} :
    Pins.wf ((p, c) :: rest) = true ↔
      c ≠ PinCell.initial ∧ (∀ e ∈ rest, p < e.1) ∧ rest.wf = true := by
  simp [Pins.wf, and_assoc]

theorem Pins.get_cons {ps : Pins} {q : PinId} (h : ∀ e ∈ ps, q < e.1) (c : PinCell) (p : PinId) :
    (Pins.cons q c ps).get p = if p = q then c else ps.get p := by
  unfold Pins.cons
  split
  · next hc =>
    subst hc
    split
    · next hp => subst hp; exact Pins.get_of_lt h
    · rfl
  · rfl

theorem Pins.wf_cons {ps : Pins} {q : PinId} (h : ∀ e ∈ ps, q < e.1) (hw : ps.wf = true) (c : PinCell) :
    (Pins.cons q c ps).wf = true := by
  unfold Pins.cons
  split
  · exact hw
  · next hc => exact Pins.wf_entry.2 ⟨hc, h, hw⟩

/-- Where the pins of a write lie. -/
theorem Pins.set_bound {ps : Pins} {p b : PinId} {c : PinCell} (h : ∀ e ∈ ps, b < e.1) (hb : b < p) :
    ∀ e ∈ ps.set p c, b < e.1 := by
  induction ps with
  | nil =>
    intro e he
    simp only [Pins.set, Pins.cons] at he
    split at he
    · cases he
    · simp at he; subst he; exact hb
  | cons e rest ih =>
    obtain ⟨q, d⟩ := e
    have hq : b < q := h (q, d) List.mem_cons_self
    have hr : ∀ e ∈ rest, b < e.1 := fun e he => h e (List.mem_cons_of_mem _ he)
    intro e he
    simp only [Pins.set, Pins.cons] at he
    split at he
    · split at he
      · exact h e he
      · rcases List.mem_cons.1 he with rfl | he
        · exact hb
        · exact h e he
    · split at he
      · split at he
        · exact hr e he
        · rcases List.mem_cons.1 he with rfl | he
          · exact hb
          · exact hr e he
      · rcases List.mem_cons.1 he with rfl | he
        · exact hq
        · exact ih hr e he

/-- A write leaves every other pin as it was, in any form of the list. -/
theorem Pins.get_set_ne {p q : PinId} (h : q ≠ p) (ps : Pins) (c : PinCell) :
    (ps.set p c).get q = ps.get q := by
  have hcons : ∀ ps : Pins, (Pins.cons p c ps).get q = ps.get q := by
    intro ps
    unfold Pins.cons
    split
    · rfl
    · rw [Pins.get_entry, if_neg h]
  induction ps with
  | nil => exact hcons []
  | cons e rest ih =>
    obtain ⟨r, d⟩ := e
    simp only [Pins.set]
    split
    · exact hcons _
    · split
      · next _ hpr => rw [hcons, Pins.get_entry, if_neg (hpr ▸ h)]
      · rw [Pins.get_entry, Pins.get_entry, ih]

/-- A cell that must be listed is read back, in any form of the list. -/
theorem Pins.get_set_listed {c : PinCell} (hc : c ≠ PinCell.initial) (ps : Pins) (p : PinId) :
    (ps.set p c).get p = c := by
  induction ps with
  | nil => simp [Pins.set, Pins.cons, hc, Pins.get]
  | cons e rest ih =>
    obtain ⟨r, d⟩ := e
    simp only [Pins.set, Pins.cons, if_neg hc]
    split
    · simp [Pins.get]
    · split
      · simp [Pins.get]
      · next _ hpr => rw [Pins.get_entry, if_neg hpr, ih]

/-- Reading after a write: the written pin has the new cell, every other pin its own. -/
theorem Pins.get_set {ps : Pins} (hw : ps.wf = true) (p : PinId) (c : PinCell) (q : PinId) :
    (ps.set p c).get q = if q = p then c else ps.get q := by
  split
  · next h =>
    subst h
    induction ps with
    | nil => rw [Pins.set, Pins.get_cons (by simp), if_pos rfl]
    | cons e rest ih =>
      obtain ⟨r, d⟩ := e
      obtain ⟨-, hr, hwr⟩ := Pins.wf_entry.1 hw
      simp only [Pins.set]
      split
      · next hlt =>
        rw [Pins.get_cons, if_pos rfl]
        intro e he
        rcases List.mem_cons.1 he with rfl | he
        · exact hlt
        · exact Nat.lt_trans hlt (hr e he)
      · split
        · next _ heq => subst heq; rw [Pins.get_cons hr, if_pos rfl]
        · next _ hne => rw [Pins.get_entry, if_neg hne, ih hwr]
  · next h => exact Pins.get_set_ne h ps c

/-- A write keeps the canonical form. -/
theorem Pins.wf_set {ps : Pins} (hw : ps.wf = true) (p : PinId) (c : PinCell) :
    (ps.set p c).wf = true := by
  induction ps with
  | nil => exact Pins.wf_cons (by simp) rfl c
  | cons e rest ih =>
    obtain ⟨r, d⟩ := e
    obtain ⟨hd, hr, hwr⟩ := Pins.wf_entry.1 hw
    simp only [Pins.set]
    split
    · next hlt =>
      refine Pins.wf_cons ?_ hw c
      intro e he
      rcases List.mem_cons.1 he with rfl | he
      · exact hlt
      · exact Nat.lt_trans hlt (hr e he)
    · split
      · next _ heq => subst heq; exact Pins.wf_cons hr hwr c
      · next hnlt hne =>
        refine Pins.wf_entry.2 ⟨hd, Pins.set_bound hr ?_, ih hwr⟩
        exact Nat.lt_of_le_of_ne (Nat.not_lt.1 hnlt) fun h => hne h.symm

/-- Equal readings are equal data: the canonical form is unique. -/
theorem Pins.ext_of_wf {ps qs : Pins} (hp : ps.wf = true) (hq : qs.wf = true)
    (h : ∀ p, ps.get p = qs.get p) : ps = qs := by
  induction ps generalizing qs with
  | nil =>
    cases qs with
    | nil => rfl
    | cons e rest =>
      obtain ⟨r, d⟩ := e
      obtain ⟨hd, -, -⟩ := Pins.wf_entry.1 hq
      have := h r
      rw [Pins.get_entry, if_pos rfl] at this
      exact absurd this.symm hd
  | cons e rest ih =>
    obtain ⟨r, d⟩ := e
    obtain ⟨hd, hr, hwr⟩ := Pins.wf_entry.1 hp
    cases qs with
    | nil =>
      have := h r
      rw [Pins.get_entry, if_pos rfl] at this
      exact absurd this hd
    | cons e' rest' =>
      obtain ⟨r', d'⟩ := e'
      obtain ⟨hd', hr', hwr'⟩ := Pins.wf_entry.1 hq
      have h1 := h r
      have h2 := h r'
      rw [Pins.get_entry, Pins.get_entry, if_pos rfl] at h1
      rw [Pins.get_entry, Pins.get_entry, if_pos rfl] at h2
      have hrr : r = r' := by
        rcases Nat.lt_trichotomy r r' with hlt | heq | hlt
        · rw [if_neg (Nat.ne_of_lt hlt), Pins.get_of_lt fun e he => Nat.lt_trans hlt (hr' e he)] at h1
          exact absurd h1 hd
        · exact heq
        · rw [if_neg (Nat.ne_of_lt hlt), Pins.get_of_lt fun e he => Nat.lt_trans hlt (hr e he)] at h2
          exact absurd h2.symm hd'
      subst hrr
      rw [if_pos rfl] at h1
      have hrest : rest = rest' := by
        refine ih hwr hwr' fun p => ?_
        have hp' := h p
        rw [Pins.get_entry, Pins.get_entry] at hp'
        by_cases hpr : p = r
        · subst hpr
          rw [Pins.get_of_lt hr, Pins.get_of_lt hr']
        · rwa [if_neg hpr, if_neg hpr] at hp'
      rw [h1, hrest]

/-- Every pin event keeps the canonical form. -/
theorem Pins.wf_apply {ps : Pins} (hw : ps.wf = true) (keeps : Bool) (e : Event) :
    (ps.apply keeps e).wf = true := by
  cases e with
  | cfg p d => exact Pins.wf_set hw _ _
  | wr p b => exact Pins.wf_set hw _ _
  | rstAll => rfl
  | rd | dl | fail => exact hw

/-- Any list of events keeps the canonical form. -/
theorem Pins.wf_replay {ps : Pins} (hw : ps.wf = true) (keeps : Bool) (es : List Event) :
    (ps.replay keeps es).wf = true := by
  induction es generalizing ps with
  | nil => exact hw
  | cons e es ih => exact ih (Pins.wf_apply hw keeps e)

@[simp] theorem Pins.replay_nil (ps : Pins) (keeps : Bool) : ps.replay keeps [] = ps := rfl

@[simp] theorem Pins.replay_cons (ps : Pins) (keeps : Bool) (e : Event) (es : List Event) :
    ps.replay keeps (e :: es) = (ps.apply keeps e).replay keeps es := rfl

theorem Pins.replay_append (ps : Pins) (keeps : Bool) (es fs : List Event) :
    ps.replay keeps (es ++ fs) = (ps.replay keeps es).replay keeps fs := List.foldl_append

/-- Configuring a pin gives it the direction and keeps or loses its level (R42). -/
theorem Pins.get_configure_self (ps : Pins) (keeps : Bool) (p : PinId) (d : IoDir) :
    (ps.configure keeps p d).get p =
      ⟨d.dir, if (ps.get p).dir = d.dir && keeps then (ps.get p).drv else none⟩ :=
  Pins.get_set_listed (by cases d <;> simp [PinCell.initial, IoDir.dir]) ps p

/-- Configuring a pin touches no other pin (R42). -/
theorem Pins.get_configure_ne {p q : PinId} (h : q ≠ p) (ps : Pins) (keeps : Bool) (d : IoDir) :
    (ps.configure keeps p d).get q = ps.get q := Pins.get_set_ne h ps _

/-- Driving a pin sets its level (R43). -/
theorem Pins.get_drive_self (ps : Pins) (p : PinId) (b : Bit) :
    (ps.drive p b).get p = ⟨(ps.get p).dir, some b⟩ :=
  Pins.get_set_listed (by simp [PinCell.initial]) ps p

/-- Driving a pin touches no other pin (R43). -/
theorem Pins.get_drive_ne {p q : PinId} (h : q ≠ p) (ps : Pins) (b : Bit) :
    (ps.drive p b).get q = ps.get q := Pins.get_set_ne h ps _

/-- After a release no pin is configured or driven (R45). -/
@[simp] theorem Pins.get_release (ps : Pins) (p : PinId) : ps.release.get p = PinCell.initial := rfl

/-- A pin configured as output stays one while outputs are configured and levels driven. -/
theorem Pins.out_of_out {ps : Pins} {q : PinId} (h : (ps.get q).dir = .out) :
    (∀ keeps p, ((ps.configure keeps p .out).get q).dir = .out) ∧
      ∀ p b, ((ps.drive p b).get q).dir = .out := by
  constructor
  · intro keeps p
    by_cases hq : q = p
    · subst hq; rw [Pins.get_configure_self]; rfl
    · rwa [Pins.get_configure_ne hq]
  · intro p b
    by_cases hq : q = p
    · subst hq; rwa [Pins.get_drive_self]
    · rwa [Pins.get_drive_ne hq]

end Sys2Proof.Machine
end

