-- ==== Sys2Proof/Laws/State.lean ====
section
/-! SUPPORT. One lemma per field per update of the state, each true by rfl. -/

namespace Sys2Proof.Machine

variable (s : State)

@[simp] theorem State.setLife_before (l : Life) : (s.setLife l).before = s.before := rfl
@[simp] theorem State.setLife_cur (l : Life) : (s.setLife l).cur = { s.cur with life := l } := rfl
@[simp] theorem State.setLife_after (l : Life) : (s.setLife l).after = s.after := rfl
@[simp] theorem State.setLife_pins (l : Life) : (s.setLife l).pins = s.pins := rfl
@[simp] theorem State.setLife_trace (l : Life) : (s.setLife l).trace = s.trace := rfl
@[simp] theorem State.setLife_numbering (l : Life) : (s.setLife l).numbering = s.numbering := rfl
@[simp] theorem State.setLife_reconfKeepsLevel (l : Life) : (s.setLife l).reconfKeepsLevel = s.reconfKeepsLevel := rfl
@[simp] theorem State.setLife_calls (l : Life) : (s.setLife l).calls = s.calls := rfl
@[simp] theorem State.setLife_world (l : Life) : (s.setLife l).world = s.world := rfl
@[simp] theorem State.setLife_host (l : Life) : (s.setLife l).host = s.host := rfl
@[simp] theorem State.setLife_responses (l : Life) : (s.setLife l).responses = s.responses := rfl
@[simp] theorem State.setLife_readouts (l : Life) : (s.setLife l).readouts = s.readouts := rfl
@[simp] theorem State.setLife_answer (l : Life) (n : Nat) : (s.setLife l).answer n = s.answer n := rfl

@[simp] theorem State.setErr_before (e : Option Bit) : (s.setErr e).before = s.before := rfl
@[simp] theorem State.setErr_cur (e : Option Bit) : (s.setErr e).cur = { s.cur with err := e } := rfl
@[simp] theorem State.setErr_after (e : Option Bit) : (s.setErr e).after = s.after := rfl
@[simp] theorem State.setErr_pins (e : Option Bit) : (s.setErr e).pins = s.pins := rfl
@[simp] theorem State.setErr_trace (e : Option Bit) : (s.setErr e).trace = s.trace := rfl
@[simp] theorem State.setErr_numbering (e : Option Bit) : (s.setErr e).numbering = s.numbering := rfl
@[simp] theorem State.setErr_reconfKeepsLevel (e : Option Bit) : (s.setErr e).reconfKeepsLevel = s.reconfKeepsLevel := rfl
@[simp] theorem State.setErr_calls (e : Option Bit) : (s.setErr e).calls = s.calls := rfl
@[simp] theorem State.setErr_world (e : Option Bit) : (s.setErr e).world = s.world := rfl
@[simp] theorem State.setErr_host (e : Option Bit) : (s.setErr e).host = s.host := rfl
@[simp] theorem State.setErr_responses (e : Option Bit) : (s.setErr e).responses = s.responses := rfl
@[simp] theorem State.setErr_readouts (e : Option Bit) : (s.setErr e).readouts = s.readouts := rfl
@[simp] theorem State.setErr_answer (e : Option Bit) (n : Nat) : (s.setErr e).answer n = s.answer n := rfl

@[simp] theorem State.setReg_before (r : Option BitReg) : (s.setReg r).before = s.before := rfl
@[simp] theorem State.setReg_cur (r : Option BitReg) : (s.setReg r).cur = { s.cur with reg := r } := rfl
@[simp] theorem State.setReg_after (r : Option BitReg) : (s.setReg r).after = s.after := rfl
@[simp] theorem State.setReg_pins (r : Option BitReg) : (s.setReg r).pins = s.pins := rfl
@[simp] theorem State.setReg_trace (r : Option BitReg) : (s.setReg r).trace = s.trace := rfl
@[simp] theorem State.setReg_numbering (r : Option BitReg) : (s.setReg r).numbering = s.numbering := rfl
@[simp] theorem State.setReg_reconfKeepsLevel (r : Option BitReg) : (s.setReg r).reconfKeepsLevel = s.reconfKeepsLevel := rfl
@[simp] theorem State.setReg_calls (r : Option BitReg) : (s.setReg r).calls = s.calls := rfl
@[simp] theorem State.setReg_world (r : Option BitReg) : (s.setReg r).world = s.world := rfl
@[simp] theorem State.setReg_host (r : Option BitReg) : (s.setReg r).host = s.host := rfl
@[simp] theorem State.setReg_responses (r : Option BitReg) : (s.setReg r).responses = s.responses := rfl
@[simp] theorem State.setReg_readouts (r : Option BitReg) : (s.setReg r).readouts = s.readouts := rfl
@[simp] theorem State.setReg_answer (r : Option BitReg) (n : Nat) : (s.setReg r).answer n = s.answer n := rfl

@[simp] theorem State.setIdx_before (i : Option Nat) : (s.setIdx i).before = s.before := rfl
@[simp] theorem State.setIdx_cur (i : Option Nat) : (s.setIdx i).cur = { s.cur with idx := i } := rfl
@[simp] theorem State.setIdx_after (i : Option Nat) : (s.setIdx i).after = s.after := rfl
@[simp] theorem State.setIdx_pins (i : Option Nat) : (s.setIdx i).pins = s.pins := rfl
@[simp] theorem State.setIdx_trace (i : Option Nat) : (s.setIdx i).trace = s.trace := rfl
@[simp] theorem State.setIdx_numbering (i : Option Nat) : (s.setIdx i).numbering = s.numbering := rfl
@[simp] theorem State.setIdx_reconfKeepsLevel (i : Option Nat) : (s.setIdx i).reconfKeepsLevel = s.reconfKeepsLevel := rfl
@[simp] theorem State.setIdx_calls (i : Option Nat) : (s.setIdx i).calls = s.calls := rfl
@[simp] theorem State.setIdx_world (i : Option Nat) : (s.setIdx i).world = s.world := rfl
@[simp] theorem State.setIdx_host (i : Option Nat) : (s.setIdx i).host = s.host := rfl
@[simp] theorem State.setIdx_responses (i : Option Nat) : (s.setIdx i).responses = s.responses := rfl
@[simp] theorem State.setIdx_readouts (i : Option Nat) : (s.setIdx i).readouts = s.readouts := rfl
@[simp] theorem State.setIdx_answer (i : Option Nat) (n : Nat) : (s.setIdx i).answer n = s.answer n := rfl

@[simp] theorem State.setBusy_before (b : Bool) : (s.setBusy b).before = s.before := rfl
@[simp] theorem State.setBusy_cur (b : Bool) : (s.setBusy b).cur = { s.cur with busy := b } := rfl
@[simp] theorem State.setBusy_after (b : Bool) : (s.setBusy b).after = s.after := rfl
@[simp] theorem State.setBusy_pins (b : Bool) : (s.setBusy b).pins = s.pins := rfl
@[simp] theorem State.setBusy_trace (b : Bool) : (s.setBusy b).trace = s.trace := rfl
@[simp] theorem State.setBusy_numbering (b : Bool) : (s.setBusy b).numbering = s.numbering := rfl
@[simp] theorem State.setBusy_reconfKeepsLevel (b : Bool) : (s.setBusy b).reconfKeepsLevel = s.reconfKeepsLevel := rfl
@[simp] theorem State.setBusy_calls (b : Bool) : (s.setBusy b).calls = s.calls := rfl
@[simp] theorem State.setBusy_world (b : Bool) : (s.setBusy b).world = s.world := rfl
@[simp] theorem State.setBusy_host (b : Bool) : (s.setBusy b).host = s.host := rfl
@[simp] theorem State.setBusy_responses (b : Bool) : (s.setBusy b).responses = s.responses := rfl
@[simp] theorem State.setBusy_readouts (b : Bool) : (s.setBusy b).readouts = s.readouts := rfl
@[simp] theorem State.setBusy_answer (b : Bool) (n : Nat) : (s.setBusy b).answer n = s.answer n := rfl

@[simp] theorem State.setPins_before (ps : Pins) : (s.setPins ps).before = s.before := rfl
@[simp] theorem State.setPins_cur (ps : Pins) : (s.setPins ps).cur = s.cur := rfl
@[simp] theorem State.setPins_after (ps : Pins) : (s.setPins ps).after = s.after := rfl
@[simp] theorem State.setPins_pins (ps : Pins) : (s.setPins ps).pins = ps := rfl
@[simp] theorem State.setPins_trace (ps : Pins) : (s.setPins ps).trace = s.trace := rfl
@[simp] theorem State.setPins_numbering (ps : Pins) : (s.setPins ps).numbering = s.numbering := rfl
@[simp] theorem State.setPins_reconfKeepsLevel (ps : Pins) : (s.setPins ps).reconfKeepsLevel = s.reconfKeepsLevel := rfl
@[simp] theorem State.setPins_calls (ps : Pins) : (s.setPins ps).calls = s.calls := rfl
@[simp] theorem State.setPins_world (ps : Pins) : (s.setPins ps).world = s.world := rfl
@[simp] theorem State.setPins_host (ps : Pins) : (s.setPins ps).host = s.host := rfl
@[simp] theorem State.setPins_responses (ps : Pins) : (s.setPins ps).responses = s.responses := rfl
@[simp] theorem State.setPins_readouts (ps : Pins) : (s.setPins ps).readouts = s.readouts := rfl
@[simp] theorem State.setPins_answer (ps : Pins) (n : Nat) : (s.setPins ps).answer n = s.answer n := rfl
@[simp] theorem State.setPins_blocks (ps : Pins) : (s.setPins ps).blocks = s.blocks := rfl
@[simp] theorem State.setPins_openDisjoint (ps : Pins) : (s.setPins ps).openDisjoint = s.openDisjoint := rfl

@[simp] theorem State.pushEvent_before (e : Event) : (s.pushEvent e).before = s.before := rfl
@[simp] theorem State.pushEvent_cur (e : Event) : (s.pushEvent e).cur = s.cur := rfl
@[simp] theorem State.pushEvent_after (e : Event) : (s.pushEvent e).after = s.after := rfl
@[simp] theorem State.pushEvent_pins (e : Event) : (s.pushEvent e).pins = s.pins := rfl
@[simp] theorem State.pushEvent_trace (e : Event) : (s.pushEvent e).trace = s.trace ++ [e] := rfl
@[simp] theorem State.pushEvent_numbering (e : Event) : (s.pushEvent e).numbering = s.numbering := rfl
@[simp] theorem State.pushEvent_reconfKeepsLevel (e : Event) : (s.pushEvent e).reconfKeepsLevel = s.reconfKeepsLevel := rfl
@[simp] theorem State.pushEvent_calls (e : Event) : (s.pushEvent e).calls = s.calls := rfl
@[simp] theorem State.pushEvent_world (e : Event) : (s.pushEvent e).world = s.world := rfl
@[simp] theorem State.pushEvent_host (e : Event) : (s.pushEvent e).host = s.host := rfl
@[simp] theorem State.pushEvent_responses (e : Event) : (s.pushEvent e).responses = s.responses := rfl
@[simp] theorem State.pushEvent_readouts (e : Event) : (s.pushEvent e).readouts = s.readouts := rfl
@[simp] theorem State.pushEvent_answer (e : Event) (n : Nat) : (s.pushEvent e).answer n = s.answer n := rfl
@[simp] theorem State.pushEvent_blocks (e : Event) : (s.pushEvent e).blocks = s.blocks := rfl
@[simp] theorem State.pushEvent_openDisjoint (e : Event) : (s.pushEvent e).openDisjoint = s.openDisjoint := rfl

@[simp] theorem State.tick_before : (s.tick).before = s.before := rfl
@[simp] theorem State.tick_cur : (s.tick).cur = s.cur := rfl
@[simp] theorem State.tick_after : (s.tick).after = s.after := rfl
@[simp] theorem State.tick_pins : (s.tick).pins = s.pins := rfl
@[simp] theorem State.tick_trace : (s.tick).trace = s.trace := rfl
@[simp] theorem State.tick_numbering : (s.tick).numbering = s.numbering := rfl
@[simp] theorem State.tick_reconfKeepsLevel : (s.tick).reconfKeepsLevel = s.reconfKeepsLevel := rfl
@[simp] theorem State.tick_calls : (s.tick).calls = s.calls + 1 := rfl
@[simp] theorem State.tick_world : (s.tick).world = s.world := rfl
@[simp] theorem State.tick_host : (s.tick).host = s.host := rfl
@[simp] theorem State.tick_responses : (s.tick).responses = s.responses := rfl
@[simp] theorem State.tick_readouts : (s.tick).readouts = s.readouts := rfl
@[simp] theorem State.tick_answer (n : Nat) : (s.tick).answer n = s.answer n := rfl
@[simp] theorem State.tick_blocks : (s.tick).blocks = s.blocks := rfl
@[simp] theorem State.tick_openDisjoint : (s.tick).openDisjoint = s.openDisjoint := rfl

@[simp] theorem State.pushResponse_before (r : Response) : (s.pushResponse r).before = s.before := rfl
@[simp] theorem State.pushResponse_cur (r : Response) : (s.pushResponse r).cur = s.cur := rfl
@[simp] theorem State.pushResponse_after (r : Response) : (s.pushResponse r).after = s.after := rfl
@[simp] theorem State.pushResponse_pins (r : Response) : (s.pushResponse r).pins = s.pins := rfl
@[simp] theorem State.pushResponse_trace (r : Response) : (s.pushResponse r).trace = s.trace := rfl
@[simp] theorem State.pushResponse_numbering (r : Response) : (s.pushResponse r).numbering = s.numbering := rfl
@[simp] theorem State.pushResponse_reconfKeepsLevel (r : Response) : (s.pushResponse r).reconfKeepsLevel = s.reconfKeepsLevel := rfl
@[simp] theorem State.pushResponse_calls (r : Response) : (s.pushResponse r).calls = s.calls := rfl
@[simp] theorem State.pushResponse_world (r : Response) : (s.pushResponse r).world = s.world := rfl
@[simp] theorem State.pushResponse_host (r : Response) : (s.pushResponse r).host = s.host := rfl
@[simp] theorem State.pushResponse_responses (r : Response) : (s.pushResponse r).responses = s.responses ++ [r] := rfl
@[simp] theorem State.pushResponse_readouts (r : Response) : (s.pushResponse r).readouts = s.readouts := rfl
@[simp] theorem State.pushResponse_answer (r : Response) (n : Nat) : (s.pushResponse r).answer n = s.answer n := rfl
@[simp] theorem State.pushResponse_blocks (r : Response) : (s.pushResponse r).blocks = s.blocks := rfl
@[simp] theorem State.pushResponse_openDisjoint (r : Response) : (s.pushResponse r).openDisjoint = s.openDisjoint := rfl

@[simp] theorem State.pushReadout_before (r : Readout) : (s.pushReadout r).before = s.before := rfl
@[simp] theorem State.pushReadout_cur (r : Readout) : (s.pushReadout r).cur = s.cur := rfl
@[simp] theorem State.pushReadout_after (r : Readout) : (s.pushReadout r).after = s.after := rfl
@[simp] theorem State.pushReadout_pins (r : Readout) : (s.pushReadout r).pins = s.pins := rfl
@[simp] theorem State.pushReadout_trace (r : Readout) : (s.pushReadout r).trace = s.trace := rfl
@[simp] theorem State.pushReadout_numbering (r : Readout) : (s.pushReadout r).numbering = s.numbering := rfl
@[simp] theorem State.pushReadout_reconfKeepsLevel (r : Readout) : (s.pushReadout r).reconfKeepsLevel = s.reconfKeepsLevel := rfl
@[simp] theorem State.pushReadout_calls (r : Readout) : (s.pushReadout r).calls = s.calls := rfl
@[simp] theorem State.pushReadout_world (r : Readout) : (s.pushReadout r).world = s.world := rfl
@[simp] theorem State.pushReadout_host (r : Readout) : (s.pushReadout r).host = s.host := rfl
@[simp] theorem State.pushReadout_responses (r : Readout) : (s.pushReadout r).responses = s.responses := rfl
@[simp] theorem State.pushReadout_readouts (r : Readout) : (s.pushReadout r).readouts = s.readouts ++ [r] := rfl
@[simp] theorem State.pushReadout_answer (r : Readout) (n : Nat) : (s.pushReadout r).answer n = s.answer n := rfl
@[simp] theorem State.pushReadout_blocks (r : Readout) : (s.pushReadout r).blocks = s.blocks := rfl
@[simp] theorem State.pushReadout_openDisjoint (r : Readout) : (s.pushReadout r).openDisjoint = s.openDisjoint := rfl

@[simp] theorem State.setHost_before (h : List HostAction) : (s.setHost h).before = s.before := rfl
@[simp] theorem State.setHost_cur (h : List HostAction) : (s.setHost h).cur = s.cur := rfl
@[simp] theorem State.setHost_after (h : List HostAction) : (s.setHost h).after = s.after := rfl
@[simp] theorem State.setHost_pins (h : List HostAction) : (s.setHost h).pins = s.pins := rfl
@[simp] theorem State.setHost_trace (h : List HostAction) : (s.setHost h).trace = s.trace := rfl
@[simp] theorem State.setHost_numbering (h : List HostAction) : (s.setHost h).numbering = s.numbering := rfl
@[simp] theorem State.setHost_reconfKeepsLevel (h : List HostAction) : (s.setHost h).reconfKeepsLevel = s.reconfKeepsLevel := rfl
@[simp] theorem State.setHost_calls (h : List HostAction) : (s.setHost h).calls = s.calls := rfl
@[simp] theorem State.setHost_world (h : List HostAction) : (s.setHost h).world = s.world := rfl
@[simp] theorem State.setHost_host (h : List HostAction) : (s.setHost h).host = h := rfl
@[simp] theorem State.setHost_responses (h : List HostAction) : (s.setHost h).responses = s.responses := rfl
@[simp] theorem State.setHost_readouts (h : List HostAction) : (s.setHost h).readouts = s.readouts := rfl
@[simp] theorem State.setHost_answer (h : List HostAction) (n : Nat) : (s.setHost h).answer n = s.answer n := rfl
@[simp] theorem State.setHost_blocks (h : List HostAction) : (s.setHost h).blocks = s.blocks := rfl
@[simp] theorem State.setHost_openDisjoint (h : List HostAction) : (s.setHost h).openDisjoint = s.openDisjoint := rfl

@[simp] theorem State.setNumbering_before (h : Option Nat) : (s.setNumbering h).before = s.before := rfl
@[simp] theorem State.setNumbering_cur (h : Option Nat) : (s.setNumbering h).cur = s.cur := rfl
@[simp] theorem State.setNumbering_after (h : Option Nat) : (s.setNumbering h).after = s.after := rfl
@[simp] theorem State.setNumbering_pins (h : Option Nat) : (s.setNumbering h).pins = s.pins := rfl
@[simp] theorem State.setNumbering_trace (h : Option Nat) : (s.setNumbering h).trace = s.trace := rfl
@[simp] theorem State.setNumbering_numbering (h : Option Nat) : (s.setNumbering h).numbering = h := rfl
@[simp] theorem State.setNumbering_reconfKeepsLevel (h : Option Nat) : (s.setNumbering h).reconfKeepsLevel = s.reconfKeepsLevel := rfl
@[simp] theorem State.setNumbering_calls (h : Option Nat) : (s.setNumbering h).calls = s.calls := rfl
@[simp] theorem State.setNumbering_world (h : Option Nat) : (s.setNumbering h).world = s.world := rfl
@[simp] theorem State.setNumbering_host (h : Option Nat) : (s.setNumbering h).host = s.host := rfl
@[simp] theorem State.setNumbering_responses (h : Option Nat) : (s.setNumbering h).responses = s.responses := rfl
@[simp] theorem State.setNumbering_readouts (h : Option Nat) : (s.setNumbering h).readouts = s.readouts := rfl
@[simp] theorem State.setNumbering_answer (h : Option Nat) (n : Nat) : (s.setNumbering h).answer n = s.answer n := rfl
@[simp] theorem State.setNumbering_blocks (h : Option Nat) : (s.setNumbering h).blocks = s.blocks := rfl
@[simp] theorem State.setNumbering_openDisjoint (h : Option Nat) : (s.setNumbering h).openDisjoint = s.openDisjoint := rfl


end Sys2Proof.Machine
end

