-- ==== Sys2Proof/Laws/Ops.lean ====
section
/-! SUPPORT. `State.perform`, and what each pin call does, in its terms: it fails or completes, nothing else. -/

namespace Sys2Proof.Machine

section Perform
variable (s : State) (n : Nat) (es : List Event)

@[simp] theorem State.perform_before : (s.perform n es).before = s.before := rfl
@[simp] theorem State.perform_cur : (s.perform n es).cur = s.cur := rfl
@[simp] theorem State.perform_after : (s.perform n es).after = s.after := rfl
@[simp] theorem State.perform_numbering : (s.perform n es).numbering = s.numbering := rfl
@[simp] theorem State.perform_reconfKeepsLevel : (s.perform n es).reconfKeepsLevel = s.reconfKeepsLevel := rfl
@[simp] theorem State.perform_world : (s.perform n es).world = s.world := rfl
@[simp] theorem State.perform_host : (s.perform n es).host = s.host := rfl
@[simp] theorem State.perform_responses : (s.perform n es).responses = s.responses := rfl
@[simp] theorem State.perform_readouts : (s.perform n es).readouts = s.readouts := rfl
@[simp] theorem State.perform_pins : (s.perform n es).pins = s.pins.replay s.reconfKeepsLevel es := rfl
@[simp] theorem State.perform_trace : (s.perform n es).trace = s.trace ++ es := rfl
@[simp] theorem State.perform_calls : (s.perform n es).calls = s.calls + n := rfl
@[simp] theorem State.perform_answer (k : Nat) : (s.perform n es).answer k = s.answer k := rfl
@[simp] theorem State.perform_blocks : (s.perform n es).blocks = s.blocks := rfl
@[simp] theorem State.perform_openDisjoint : (s.perform n es).openDisjoint = s.openDisjoint := rfl

theorem State.setErr_perform (e : Option Bit) : (s.setErr e).perform n es = (s.perform n es).setErr e := rfl
theorem State.setLife_perform (l : Life) : (s.setLife l).perform n es = (s.perform n es).setLife l := rfl
theorem State.setReg_perform (r : Option BitReg) : (s.setReg r).perform n es = (s.perform n es).setReg r := rfl
theorem State.setIdx_perform (i : Option Nat) : (s.setIdx i).perform n es = (s.perform n es).setIdx i := rfl
theorem State.setBusy_perform (b : Bool) : (s.setBusy b).perform n es = (s.perform n es).setBusy b := rfl
theorem State.pushResponse_perform (r : Response) : (s.pushResponse r).perform n es = (s.perform n es).pushResponse r := rfl

end Perform

@[simp] theorem State.perform_none (s : State) : s.perform 0 [] = s := by
  simp [State.perform]

/-- Work done in two parts is the work of both (R53). -/
@[simp] theorem State.perform_perform (s : State) (n m : Nat) (es fs : List Event) :
    (s.perform n es).perform m fs = s.perform (n + m) (es ++ fs) := by
  simp [State.perform, Pins.replay_append, Nat.add_assoc]

@[simp] theorem State.setIdx_setIdx (s : State) (i j : Option Nat) : (s.setIdx i).setIdx j = s.setIdx j := rfl

@[simp] theorem Res.bind_done {α β : Type} (a : α) (s : State) (f : α → State → Res β) :
    (Res.done a s).bind f = f a s := rfl

@[simp] theorem Res.bind_raised {α β : Type} (x : Status) (s : State) (f : α → State → Res β) :
    (Res.raised x s).bind f = .raised x s := rfl

@[simp] theorem Res.bind_refused {α β : Type} (r : Refusal) (f : α → State → Res β) :
    (Res.refused r : Res α).bind f = .refused r := rfl

theorem Res.bind_assoc {α β γ : Type} (x : Res α) (f : α → State → Res β) (g : β → State → Res γ) :
    (x.bind f).bind g = x.bind fun a s => (f a s).bind g := by
  cases x <;> rfl

/-! ### The pin calls -/

/-- `PinCfg` completes (R42) unless the platform fails it (R47): together with `pinCfg_failed`, all it can do. -/
theorem pinCfg_done {s : State} (h : (s.answer s.calls).fails = false) (p : PinId) (d : IoDir) :
    pinCfg p d s = .done () (s.perform 1 [.cfg p d]) := by
  simp only [pinCfg, pinCall, h]; rfl

theorem pinCfg_failed {s : State} (h : (s.answer s.calls).fails = true) (p : PinId) (d : IoDir) :
    pinCfg p d s = .raised (.pinAccessFailure (.cfg p d) s.cur.idx) (s.perform 1 [.fail (.cfg p d)]) := by
  simp only [pinCfg, pinCall, h]; rfl

/-- `PinWr` on an output completes (R43) unless the platform fails it (R47). -/
theorem pinWr_done {s : State} {p : PinId} (h : (s.answer s.calls).fails = false)
    (hd : (s.pins.get p).dir = .out) (b : Bit) : pinWr p b s = .done () (s.perform 1 [.wr p b]) := by
  simp only [pinWr, if_pos hd, pinCall, h]; rfl

theorem pinWr_failed {s : State} {p : PinId} (h : (s.answer s.calls).fails = true)
    (hd : (s.pins.get p).dir = .out) (b : Bit) :
    pinWr p b s = .raised (.pinAccessFailure (.wr p b) s.cur.idx) (s.perform 1 [.fail (.wr p b)]) := by
  simp only [pinWr, if_pos hd, pinCall, h]; rfl

/-- `PinRd` of an input completes with the world's level (R44) unless the platform fails it (R47). -/
theorem pinRd_done {s : State} {p : PinId} (h : (s.answer s.calls).fails = false)
    (hd : (s.pins.get p).dir = .inp) :
    pinRd p s = .done (s.answer s.calls).level (s.perform 1 [.rd p (s.answer s.calls).level]) := by
  simp only [pinRd, if_pos hd, pinCall, h]; rfl

theorem pinRd_failed {s : State} {p : PinId} (h : (s.answer s.calls).fails = true)
    (hd : (s.pins.get p).dir = .inp) :
    pinRd p s = .raised (.pinAccessFailure (.rd p) s.cur.idx) (s.perform 1 [.fail (.rd p)]) := by
  simp only [pinRd, if_pos hd, pinCall, h]; rfl

/-- `PinResetAll` completes (R45) unless the platform fails it (R47). -/
theorem pinResetAll_done {s : State} (h : (s.answer s.calls).fails = false) :
    pinResetAll s = .done () (s.perform 1 [.rstAll]) := by
  simp only [pinResetAll, pinCall, h]; rfl

theorem pinResetAll_failed {s : State} (h : (s.answer s.calls).fails = true) :
    pinResetAll s = .raised (.pinAccessFailure .resetAll s.cur.idx) (s.perform 1 [.fail .resetAll]) := by
  simp only [pinResetAll, pinCall, h]; rfl

/-- `Delay` cannot fail (R46). -/
theorem delay_eq (t : Duration) (s : State) : delay t s = .done () (s.perform 0 [.dl t]) := rfl

/-! ### The platform's answers -/

theorem State.NoFail.head {s : State} {n : Nat} (h : s.NoFail n) (hn : 0 < n) :
    (s.answer s.calls).fails = false := h 0 hn

/-- What is left of a failure-free stretch after `m` of its calls. -/
theorem State.NoFail.drop {s : State} {n m : Nat} (h : s.NoFail (m + n)) (es : List Event) :
    (s.perform m es).NoFail n := by
  intro k hk
  have := h (m + k) (by omega)
  simpa [Nat.add_assoc] using this

theorem State.NoFail.mono {s : State} {n m : Nat} (h : s.NoFail n) (hm : m ≤ n) : s.NoFail m :=
  fun k hk => h k (by omega)

/-- A failure after `m + n` calls is one after `n` calls once `m` are done. -/
theorem State.FirstFail.drop {s : State} {n m : Nat} (h : s.FirstFail (m + n)) (es : List Event) :
    (s.perform m es).FirstFail n :=
  ⟨h.1.drop es, by simpa [Nat.add_assoc] using h.2⟩

end Sys2Proof.Machine
end

