-- ==== Sys2Proof/Laws/Loops.lean ====
section
/-! SUPPORT. The loops of the commands run: what each leaves when no pin call fails, and when one does. -/

namespace Sys2Proof.Machine

/-- `REG[I]` in range (R87). -/
theorem regAtIndex_eq {s : State} {r : BitReg} {i : Nat} (hr : s.cur.reg = some r)
    (hi : s.cur.idx = some i) (hlt : i < r.length) : regAtIndex s = .done (r.getD i false) s := by
  simp [regAtIndex, hr, hi, List.getElem?_eq_getElem hlt, List.getD_eq_getElem?_getD]

/-- One turn of the loop of TX.P (R87): the two calls, the first failing or the second or none. -/
theorem writePins_turn {s : State} {r : BitReg} (hr : s.cur.reg = some r) {p : PinId} {i : Nat}
    (hi : i < r.length) (rest : List (PinId × Nat)) :
    writePins ((p, i) :: rest) s =
      if (s.answer s.calls).fails then
        .raised (.pinAccessFailure (.cfg p .out) (some i)) ((s.perform 1 [.fail (.cfg p .out)]).setIdx (some i))
      else if (s.answer (s.calls + 1)).fails then
        .raised (.pinAccessFailure (.wr p (r.getD i false)) (some i))
          ((s.perform 2 [.cfg p .out, .fail (.wr p (r.getD i false))]).setIdx (some i))
      else writePins rest ((s.perform 2 (pinWriteEvents r (p, i))).setIdx (some i)) := by
  rw [writePins]
  rcases Bool.eq_false_or_eq_true (s.answer s.calls).fails with h0 | h0
  · rw [pinCfg_failed (s := s.setIdx (some i)) h0, if_pos h0]; rfl
  · have hout : (((s.setIdx (some i)).perform 1 [.cfg p .out]).pins.get p).dir = .out := by
      simp [Pins.apply, Pins.get_configure_self, IoDir.dir]
    rw [pinCfg_done (s := s.setIdx (some i)) h0, if_neg (by simp [h0]), Res.bind_done,
      regAtIndex_eq (r := r) (i := i) (by simpa using hr) (by simp) hi, Res.bind_done]
    rcases Bool.eq_false_or_eq_true (s.answer (s.calls + 1)).fails with h1 | h1
    · rw [pinWr_failed (s := (s.setIdx (some i)).perform 1 [.cfg p .out]) h1 hout, if_pos h1]
      simp [State.setIdx_perform]
    · rw [pinWr_done (s := (s.setIdx (some i)).perform 1 [.cfg p .out]) h1 hout, if_neg (by simp [h1])]
      simp [State.setIdx_perform, pinWriteEvents]

/-- The loop of TX.P when no call fails (R87). -/
theorem writePins_run {s : State} {r : BitReg} (hr : s.cur.reg = some r) (es : List (PinId × Nat))
    (hi : ∀ e ∈ es, e.2 < r.length) (h : s.NoFail (2 * es.length)) :
    ∃ i, writePins es s =
      .done () ((s.perform (2 * es.length) (es.flatMap (pinWriteEvents r))).setIdx i) := by
  induction es generalizing s with
  | nil => exact ⟨s.cur.idx, by simp [writePins, State.setIdx]⟩
  | cons e rest ih =>
    obtain ⟨p, i⟩ := e
    have hl : 2 * ((p, i) :: rest).length = 2 + 2 * rest.length := by simp; omega
    rw [hl] at h ⊢
    have h0 : (s.answer s.calls).fails = false := h.head (by omega)
    have h1 : (s.answer (s.calls + 1)).fails = false := h 1 (by omega)
    rw [writePins_turn hr (hi _ List.mem_cons_self)]
    obtain ⟨j, hj⟩ := ih (s := (s.perform 2 (pinWriteEvents r (p, i))).setIdx (some i)) (by simpa using hr)
      (fun e he => hi e (List.mem_cons_of_mem _ he)) (h.drop (pinWriteEvents r (p, i)))
    exact ⟨j, by simp [h0, h1, hj, State.setIdx_perform]⟩

/-- The loop of TX.P when call `n` fails first (R117): the events before it and `Fail`, `I` the index of its pin. -/
theorem writePins_fail {s : State} {r : BitReg} (hr : s.cur.reg = some r) (es : List (PinId × Nat))
    (hi : ∀ e ∈ es, e.2 < r.length) {n : Nat} (hn : n < 2 * es.length) (h : s.FirstFail n) :
    ∃ fs c i, cutAtCall n (es.flatMap (pinWriteEvents r)) = some (fs, c) ∧ es[n / 2]?.map Prod.snd = some i ∧
      writePins es s = .raised (.pinAccessFailure c (some i)) ((s.perform (n + 1) fs).setIdx (some i)) := by
  induction es generalizing s n with
  | nil => simp at hn
  | cons e rest ih =>
    obtain ⟨p, i⟩ := e
    rw [writePins_turn hr (hi _ List.mem_cons_self)]
    match n, h with
    | 0, h =>
      refine ⟨_, _, i, rfl, rfl, ?_⟩
      have : (s.answer s.calls).fails = true := h.2
      simp [this]
    | 1, h =>
      have h0 : (s.answer s.calls).fails = false := h.1.head (by omega)
      have h1 : (s.answer (s.calls + 1)).fails = true := h.2
      exact ⟨_, _, i, rfl, rfl, by simp [h0, h1]⟩
    | n + 2, h =>
      have h0 : (s.answer s.calls).fails = false := h.1.head (by omega)
      have h1 : (s.answer (s.calls + 1)).fails = false := h.1 1 (by omega)
      rw [Nat.add_comm n 2] at h
      obtain ⟨fs, c, j, hc, hj, hw⟩ := ih (s := (s.perform 2 (pinWriteEvents r (p, i))).setIdx (some i))
        (n := n) (by simpa using hr) (fun e he => hi e (List.mem_cons_of_mem _ he)) (by simp at hn; omega)
        (h.drop (pinWriteEvents r (p, i)))
      refine ⟨.cfg p .out :: .wr p (r.getD i false) :: fs, c, j, ?_, ?_, ?_⟩
      · simp [pinWriteEvents, cutAtCall, Event.call, hc]
      · rw [show (n + 2) / 2 = n / 2 + 1 by omega, List.getElem?_cons_succ]; exact hj
      · simp only [h0, h1, hw, State.setIdx_perform, State.perform_perform, State.setIdx_setIdx]
        simp [pinWriteEvents, show 2 + (n + 1) = n + 2 + 1 by omega]

/-- One turn of the loop of `Sample` (R91). -/
theorem samplePins_turn (s : State) (p : PinId) (i : Nat) (rest : List (PinId × Nat)) (r : BitReg) :
    samplePins ((p, i) :: rest) r s =
      if (s.answer s.calls).fails then
        .raised (.pinAccessFailure (.cfg p .inp) (some i)) ((s.perform 1 [.fail (.cfg p .inp)]).setIdx (some i))
      else if (s.answer (s.calls + 1)).fails then
        .raised (.pinAccessFailure (.rd p) (some i))
          ((s.perform 2 [.cfg p .inp, .fail (.rd p)]).setIdx (some i))
      else samplePins rest (r ++ [(s.answer (s.calls + 1)).level])
        ((s.perform 2 (pinReadEvents (p, (s.answer (s.calls + 1)).level))).setIdx (some i)) := by
  rw [samplePins]
  rcases Bool.eq_false_or_eq_true (s.answer s.calls).fails with h0 | h0
  · rw [pinCfg_failed (s := s.setIdx (some i)) h0, if_pos h0]; rfl
  · have hin : (((s.setIdx (some i)).perform 1 [.cfg p .inp]).pins.get p).dir = .inp := by
      simp [Pins.apply, Pins.get_configure_self, IoDir.dir]
    rw [pinCfg_done (s := s.setIdx (some i)) h0, if_neg (by simp [h0]), Res.bind_done]
    rcases Bool.eq_false_or_eq_true (s.answer (s.calls + 1)).fails with h1 | h1
    · rw [pinRd_failed (s := (s.setIdx (some i)).perform 1 [.cfg p .inp]) h1 hin, if_pos h1]
      simp [State.setIdx_perform]
    · rw [pinRd_done (s := (s.setIdx (some i)).perform 1 [.cfg p .inp]) h1 hin, if_neg (by simp [h1])]
      simp [State.setIdx_perform, pinReadEvents]

/-- The levels of a sample, one turn taken off. -/
theorem State.sampleLevels_succ (s : State) (n : Nat) (es : List Event) :
    s.sampleLevels (n + 1) = (s.answer (s.calls + 1)).level :: (s.perform 2 es).sampleLevels n := by
  rw [State.sampleLevels, List.range_succ_eq_map]
  simp only [List.map_cons, List.map_map, State.sampleLevels]
  congr 1
  apply List.map_congr_left
  intro k _
  simp only [Function.comp_apply, State.perform_answer, State.perform_calls]
  rw [show s.calls + 2 * (k + 1) + 1 = s.calls + 2 + 2 * k + 1 by omega]

@[simp] theorem State.sampleLevels_setIdx (s : State) (i : Option Nat) (n : Nat) :
    (s.setIdx i).sampleLevels n = s.sampleLevels n := rfl

/-- The loop of `Sample` when no call fails (R91). -/
theorem samplePins_run (s : State) (es : List (PinId × Nat)) (r : BitReg)
    (h : s.NoFail (2 * es.length)) :
    ∃ i, samplePins es r s =
      .done (r ++ s.sampleLevels es.length)
        ((s.perform (2 * es.length)
          (((es.map Prod.fst).zip (s.sampleLevels es.length)).flatMap pinReadEvents)).setIdx i) := by
  induction es generalizing s r with
  | nil => exact ⟨s.cur.idx, by simp [samplePins, State.setIdx, State.sampleLevels]⟩
  | cons e rest ih =>
    obtain ⟨p, i⟩ := e
    have hl : 2 * ((p, i) :: rest).length = 2 + 2 * rest.length := by simp; omega
    rw [hl] at h ⊢
    have h0 : (s.answer s.calls).fails = false := h.head (by omega)
    have h1 : (s.answer (s.calls + 1)).fails = false := h 1 (by omega)
    let b := (s.answer (s.calls + 1)).level
    obtain ⟨j, hj⟩ := ih ((s.perform 2 (pinReadEvents (p, b))).setIdx (some i)) (r ++ [b])
      (h.drop (pinReadEvents (p, b)))
    refine ⟨j, ?_⟩
    rw [samplePins_turn]
    simp only [h0, h1, Bool.false_eq_true, if_false]
    rw [hj, List.length_cons, s.sampleLevels_succ rest.length (pinReadEvents (p, b))]
    simp [State.setIdx_perform, b]

/-- The loop of `Sample` when call `n` fails first (R92, R117): no result. The levels read before it are
the world's. -/
theorem samplePins_fail (s : State) (es : List (PinId × Nat)) (r : BitReg) {n : Nat}
    (hn : n < 2 * es.length) (h : s.FirstFail n) :
    ∃ fs c i,
      cutAtCall n (((es.map Prod.fst).zip (s.sampleLevels es.length)).flatMap pinReadEvents) = some (fs, c) ∧
      es[n / 2]?.map Prod.snd = some i ∧
      samplePins es r s = .raised (.pinAccessFailure c (some i)) ((s.perform (n + 1) fs).setIdx (some i)) := by
  induction es generalizing s r n with
  | nil => simp at hn
  | cons e rest ih =>
    obtain ⟨p, i⟩ := e
    let b := (s.answer (s.calls + 1)).level
    rw [samplePins_turn, List.length_cons, s.sampleLevels_succ rest.length (pinReadEvents (p, b))]
    match n, h with
    | 0, h =>
      have : (s.answer s.calls).fails = true := h.2
      exact ⟨_, _, i, rfl, rfl, by simp [this]⟩
    | 1, h =>
      have h0 : (s.answer s.calls).fails = false := h.1.head (by omega)
      have h1 : (s.answer (s.calls + 1)).fails = true := h.2
      exact ⟨_, _, i, rfl, rfl, by simp [h0, h1]⟩
    | n + 2, h =>
      have h0 : (s.answer s.calls).fails = false := h.1.head (by omega)
      have h1 : (s.answer (s.calls + 1)).fails = false := h.1 1 (by omega)
      rw [Nat.add_comm n 2] at h
      obtain ⟨fs, c, j, hc, hj, hw⟩ := ih ((s.perform 2 (pinReadEvents (p, b))).setIdx (some i)) (r ++ [b])
        (n := n) (by simp at hn; omega) (h.drop (pinReadEvents (p, b)))
      refine ⟨.cfg p .inp :: .rd p b :: fs, c, j, ?_, ?_, ?_⟩
      · simpa [pinReadEvents, cutAtCall, Event.call, b] using hc
      · rw [show (n + 2) / 2 = n / 2 + 1 by omega, List.getElem?_cons_succ]; exact hj
      · simp only [h0, h1, Bool.false_eq_true, if_false]
        rw [hw]
        simp [pinReadEvents, State.setIdx_perform, b, show 2 + (n + 1) = n + 2 + 1 by omega]

/-! ### The bus -/

/-- A cut within the first part of a list of events is the same in the whole. -/
theorem cutAtCall_append_left {es fs : List Event} {n : Nat} {c : PinCall}
    (h : cutAtCall n es = some (fs, c)) (gs : List Event) : cutAtCall n (es ++ gs) = some (fs, c) := by
  induction es generalizing n fs with
  | nil => simp [cutAtCall] at h
  | cons e es ih =>
    rw [List.cons_append]
    cases hcall : e.call with
    | none =>
      simp only [cutAtCall, hcall, Option.map_eq_some_iff, Prod.mk.injEq, Prod.exists] at h ⊢
      obtain ⟨fs', _, h1, h2, rfl⟩ := h
      exact ⟨fs', _, ih h1, h2, rfl⟩
    | some d =>
      cases n with
      | zero => simpa [cutAtCall, hcall] using h
      | succ n =>
        simp only [cutAtCall, hcall, Option.map_eq_some_iff, Prod.mk.injEq, Prod.exists] at h ⊢
        obtain ⟨fs', _, h1, h2, rfl⟩ := h
        exact ⟨fs', _, ih h1, h2, rfl⟩

theorem Pins.out_configure_self (ps : Pins) (keeps : Bool) (p : PinId) :
    ((ps.configure keeps p .out).get p).dir = .out := by rw [Pins.get_configure_self]; rfl

theorem Pins.out_configure {ps : Pins} {q : PinId} (h : (ps.get q).dir = .out) (keeps : Bool) (p : PinId) :
    ((ps.configure keeps p .out).get q).dir = .out := (Pins.out_of_out h).1 keeps p

theorem Pins.out_drive {ps : Pins} {q : PinId} (h : (ps.get q).dir = .out) (p : PinId) (b : Bit) :
    ((ps.drive p b).get q).dir = .out := (Pins.out_of_out h).2 p b

/-- At the falling write of a bit-cycle the clock pin is an output (R60). -/
theorem Pins.out_at_fall (ps : Pins) (keeps : Bool) (d c : PinId) (b : Bit) :
    (((((ps.configure keeps d .out).configure keeps c .out).drive d b).drive c true).get c).dir = .out :=
  Pins.out_drive (Pins.out_drive (Pins.out_configure_self _ _ _) _ _) _ _

section BitCycle
variable {s : State} {r : BitReg} {i : Nat} (hr : s.cur.reg = some r) (hi : s.cur.idx = some i)
  (hlt : i < r.length)
include hr hi hlt

/-- One bit-cycle when no call fails (R96). -/
theorem bitCycle_run (h : s.NoFail 5) :
    bitCycle s = .done () (s.perform 5 (bitCycleEvents s.cur.cfg (r.getD i false))) := by
  have h0 : (s.answer s.calls).fails = false := h 0 (by omega)
  have h1 := h 1 (by omega)
  have h2 := h 2 (by omega)
  have h3 := h 3 (by omega)
  have h4 := h 4 (by omega)
  have hreg : ∀ n es, regAtIndex (s.perform n es) = .done (r.getD i false) (s.perform n es) := fun n es =>
    regAtIndex_eq hr hi hlt
  simp [bitCycle, clockPulse, pinCfg_done, pinWr_done, delay_eq, hreg, h0, h1, h2, h3, h4, Pins.apply,
    Pins.out_configure_self, Pins.out_configure, Pins.out_drive, Pins.out_at_fall, bitCycleEvents]

/-- One bit-cycle when its call `n` fails first (R117). -/
theorem bitCycle_fail {n : Nat} (hn : n < 5) (h : s.FirstFail n) :
    ∃ fs c, cutAtCall n (bitCycleEvents s.cur.cfg (r.getD i false)) = some (fs, c) ∧
      bitCycle s = .raised (.pinAccessFailure c (some i)) (s.perform (n + 1) fs) := by
  have hreg : ∀ n es, regAtIndex (s.perform n es) = .done (r.getD i false) (s.perform n es) := fun n es =>
    regAtIndex_eq hr hi hlt
  have hx := h.2
  match n, hn with
  | 0, _ =>
    refine ⟨_, _, rfl, ?_⟩
    have hx' : (s.answer s.calls).fails = true := hx
    simp [bitCycle, pinCfg_failed, hx', hi]
  | 1, _ =>
    refine ⟨_, _, rfl, ?_⟩
    have h0 : (s.answer s.calls).fails = false := h.1 0 (by omega)
    simp [bitCycle, pinCfg_done, pinCfg_failed, hx, h0, hi]
  | 2, _ =>
    refine ⟨_, _, rfl, ?_⟩
    have h0 : (s.answer s.calls).fails = false := h.1 0 (by omega)
    have h1 := h.1 1 (by omega)
    simp [bitCycle, pinCfg_done, pinWr_failed, hreg, hx, h0, h1, hi, Pins.apply, Pins.out_configure_self,
      Pins.out_configure]
  | 3, _ =>
    refine ⟨_, _, rfl, ?_⟩
    have h0 : (s.answer s.calls).fails = false := h.1 0 (by omega)
    have h1 := h.1 1 (by omega)
    have h2 := h.1 2 (by omega)
    simp [bitCycle, clockPulse, pinCfg_done, pinWr_done, pinWr_failed, hreg, hx, h0, h1, h2, hi, Pins.apply,
      Pins.out_configure_self, Pins.out_configure, Pins.out_drive]
  | 4, _ =>
    refine ⟨_, _, rfl, ?_⟩
    have h0 : (s.answer s.calls).fails = false := h.1 0 (by omega)
    have h1 := h.1 1 (by omega)
    have h2 := h.1 2 (by omega)
    have h3 := h.1 3 (by omega)
    simp [bitCycle, clockPulse, pinCfg_done, pinWr_done, pinWr_failed, delay_eq, hreg, hx, h0, h1, h2, h3, hi,
      Pins.apply, Pins.out_configure_self, Pins.out_configure, Pins.out_drive, Pins.out_at_fall]

end BitCycle

/-- The loop goes on while both conjuncts hold (R95). -/
theorem loopGuard_true {s : State} {r : BitReg} {i : Nat} (hr : s.cur.reg = some r)
    (hi : s.cur.idx = some i) (hlt : i < r.length) (hw : i < s.cur.cfg.w) : loopGuard s = true := by
  simp [loopGuard, State.regLength, hr, hi, hlt, hw]

/-- The bits still to be sent, one taken off. -/
theorem take_drop_succ {r : BitReg} {i : Nat} (hlt : i < r.length) (k : Nat) :
    (r.drop i).take (k + 1) = r.getD i false :: (r.drop (i + 1)).take k := by
  rw [List.drop_eq_getElem_cons hlt, List.take_succ_cons]
  simp [List.getD_eq_getElem?_getD, List.getElem?_eq_getElem hlt]

/-- The bus loop when no call fails (R95, R96, R99): one bit-cycle for each bit still to be sent. -/
theorem bitLoop_run {s : State} {r : BitReg} (hr : s.cur.reg = some r) (k : Nat) {i : Nat}
    (hi : s.cur.idx = some i) (hlen : i + k ≤ r.length) (hw : i + k ≤ s.cur.cfg.w)
    (h : s.NoFail (5 * k)) :
    ∃ j, bitLoop k s =
      .done () ((s.perform (5 * k) (((r.drop i).take k).flatMap (bitCycleEvents s.cur.cfg))).setIdx j) := by
  induction k generalizing s i with
  | zero => exact ⟨s.cur.idx, by simp [bitLoop, State.setIdx]⟩
  | succ k ih =>
    have hl : 5 * (k + 1) = 5 + 5 * k := by omega
    rw [hl] at h ⊢
    have hlt : i < r.length := by omega
    obtain ⟨j, hj⟩ := ih (s := (s.perform 5 (bitCycleEvents s.cur.cfg (r.getD i false))).setIdx (some (i + 1)))
      (i := i + 1) hr rfl (by omega) (by simp; omega) (h.drop (bitCycleEvents s.cur.cfg (r.getD i false)))
    refine ⟨j, ?_⟩
    rw [bitLoop, if_pos (loopGuard_true hr hi hlt (by omega)),
      bitCycle_run hr hi hlt (h.mono (by omega)), Res.bind_done, take_drop_succ hlt]
    simp only [State.perform_cur, hi, Option.map_some, hj]
    simp [State.setIdx_perform]

/-- The bus loop when call `n` fails first (R117): the bit-cycles before it whole, then the events before the
call and `Fail`; `I` is the bit-cycle. -/
theorem bitLoop_fail {s : State} {r : BitReg} (hr : s.cur.reg = some r) (k : Nat) {i : Nat}
    (hi : s.cur.idx = some i) (hlen : i + k ≤ r.length) (hw : i + k ≤ s.cur.cfg.w) {n : Nat}
    (hn : n < 5 * k) (h : s.FirstFail n) :
    ∃ fs c, cutAtCall n (((r.drop i).take k).flatMap (bitCycleEvents s.cur.cfg)) = some (fs, c) ∧
      bitLoop k s = .raised (.pinAccessFailure c (some (i + n / 5)))
        ((s.perform (n + 1) fs).setIdx (some (i + n / 5))) := by
  induction k generalizing s i n with
  | zero => omega
  | succ k ih =>
    have hlt : i < r.length := by omega
    rw [bitLoop, if_pos (loopGuard_true hr hi hlt (by omega)), take_drop_succ hlt, List.flatMap_cons]
    rcases Nat.lt_or_ge n 5 with hn5 | hn5
    · obtain ⟨fs, c, hc, hb⟩ := bitCycle_fail hr hi hlt hn5 h
      refine ⟨fs, c, cutAtCall_append_left hc _, ?_⟩
      rw [hb, Nat.div_eq_of_lt hn5, Nat.add_zero]
      simp [State.setIdx, ← hi]
      rfl
    · obtain ⟨m, rfl⟩ : ∃ m, n = 5 + m := ⟨n - 5, by omega⟩
      obtain ⟨fs, c, hc, hb⟩ := ih
        (s := (s.perform 5 (bitCycleEvents s.cur.cfg (r.getD i false))).setIdx (some (i + 1)))
        (i := i + 1) (n := m) hr rfl (by omega) (by simp; omega) (by omega)
        (h.drop (bitCycleEvents s.cur.cfg (r.getD i false)))
      refine ⟨bitCycleEvents s.cur.cfg (r.getD i false) ++ fs, c, ?_, ?_⟩
      · simp [bitCycleEvents, cutAtCall, Event.call, Nat.add_comm 5 m] at hc ⊢
        simp [hc]
      · rw [bitCycle_run hr hi hlt (h.1.mono (by omega)), Res.bind_done]
        simp only [State.perform_cur, hi, Option.map_some, hb]
        rw [show i + 1 + m / 5 = i + (5 + m) / 5 by omega]
        simp [State.setIdx_perform, Nat.add_assoc]

end Sys2Proof.Machine
end

