-- ==== Sys2Proof/Laws/Commands.lean ====
section
/-! SUPPORT. The parts of a command as a whole: admission, the frame of a command, the bodies, each with what it leaves. -/

namespace Sys2Proof.Machine

/-- No instance is busy (R133). -/
theorem anyBusy_eq_false_iff (s : State) : s.anyBusy = false ↔ ∀ b ∈ s.blocks, b.busy = false := by
  simp [State.anyBusy]

/-- A command is admitted exactly in a supported state (R16, R29, R58, R62, R138). -/
theorem refusalOf_eq_none_iff (m : Mode) (s : State) : refusalOf m s = none ↔ s.Supported m := by
  unfold refusalOf State.Supported
  rw [← anyBusy_eq_false_iff]
  by_cases h1 : s.numbering = none
  · simp [h1]
  by_cases h3 : s.cur.cfg.mode = m
  · cases h2 : s.anyBusy <;> cases h4 : s.cur.cfg.wf <;> cases h5 : s.openDisjoint <;> simp [h1, h3]
  · cases h2 : s.anyBusy <;> simp [h1, h3]

/-- A supported state admits the command, whatever its lifecycle state (R121). -/
theorem runCommand_supported {m : Mode} {s : State} (h : s.Supported m) (legal : Life)
    (body : State → Res (Option BitReg)) :
    runCommand m legal body s =
      if s.cur.life = legal then
        match body (s.setBusy true) with
        | .done r t => .next (returnOk r t)
        | .raised x t => .next (raiseStatus x t)
        | .refused r => .refused r
      else .next (raiseStatus (.lifecycleViolation s.cur.life) (s.setBusy true)) := by
  unfold runCommand
  rw [(refusalOf_eq_none_iff m s).2 h]
  all_goals rfl

/-- How a command that answers a next state came to it: it was admitted, and it is the end, normal or fault,
of its body, or the lifecycle fault. -/
theorem runCommand_cases {m : Mode} {legal : Life} {body : State → Res (Option BitReg)} {s t : State}
    (h : runCommand m legal body s = .next t) :
    s.Supported m ∧
      ((s.cur.life = legal ∧ ∃ r u, body (s.setBusy true) = .done r u ∧ t = returnOk r u) ∨
       (s.cur.life = legal ∧ ∃ x u, body (s.setBusy true) = .raised x u ∧ t = raiseStatus x u) ∨
       (s.cur.life ≠ legal ∧ t = raiseStatus (.lifecycleViolation s.cur.life) (s.setBusy true))) := by
  unfold runCommand at h
  split at h
  · cases h
  · next ha =>
    refine ⟨(refusalOf_eq_none_iff m s).1 ha, ?_⟩
    split at h
    · next hl =>
      split at h
      · next r u hb => exact .inl ⟨hl, r, u, hb, (Host.Outcome.next.inj h).symm⟩
      · next x u hb => exact .inr (.inl ⟨hl, x, u, hb, (Host.Outcome.next.inj h).symm⟩)
      · cases h
    · next hl => exact .inr (.inr ⟨hl, (Host.Outcome.next.inj h).symm⟩)

/-- A command that is refused was not admitted, or its body refused. -/
theorem runCommand_refused {m : Mode} {legal : Life} {body : State → Res (Option BitReg)} {s : State}
    {r : Refusal} (h : runCommand m legal body s = .refused r) :
    refusalOf m s = some r ∨ (s.Supported m ∧ s.cur.life = legal ∧ body (s.setBusy true) = .refused r) := by
  unfold runCommand at h
  split at h
  · next q hq => exact .inl (by rw [hq, Host.Outcome.refused.inj h])
  · next ha =>
    right
    split at h
    · next hl =>
      split at h
      · cases h
      · cases h
      · next q hb => exact ⟨(refusalOf_eq_none_iff m s).1 ha, hl, by rw [hb, Host.Outcome.refused.inj h]⟩
    · cases h

/-- No command ends in a fault of the machine (R119). -/
theorem runCommand_ne_fault {m : Mode} {legal : Life} {body : State → Res (Option BitReg)} {s : State}
    {f : Fault} : runCommand m legal body s ≠ .fault f := by
  unfold runCommand
  split
  · simp
  · split
    · split <;> simp
    · simp

/-- Of the next `n` pin calls none fails, or there is a first that does (R47, R122). -/
theorem State.noFail_or_firstFail (s : State) (n : Nat) : s.NoFail n ∨ ∃ m, m < n ∧ s.FirstFail m := by
  induction n with
  | zero => exact .inl fun k hk => absurd hk (by omega)
  | succ n ih =>
    rcases ih with h | ⟨m, hm, hf⟩
    · rcases Bool.eq_false_or_eq_true (s.answer (s.calls + n)).fails with hb | hb
      · exact .inr ⟨n, by omega, h, hb⟩
      · left
        intro k hk
        rcases Nat.lt_or_ge k n with hkn | hkn
        · exact h k hkn
        · obtain rfl : k = n := by omega
          exact hb
    · exact .inr ⟨m, by omega, hf⟩

/-- On an idle instance, the start and the end of a command cancel: only the response is left (R39, R124). -/
theorem finish_busy {s : State} (h : s.cur.Idle) (r : Response) :
    finish r (s.setBusy true) = s.pushResponse r := by
  obtain ⟨hb, hr, hi, -⟩ := h
  obtain ⟨b, ⟨cfg, life, err, reg, idx, busy⟩, a, p, tr, nu, re, ca, w, ho, rs, ro⟩ := s
  simp only at hb hr hi
  subst hb hr hi
  rfl

/-- `ErrUpdate` ends as one write (R26, R38 a). -/
theorem errUpdate_eq (len cap : Nat) (s : State) :
    errUpdate len cap s = s.setErr (some (errResult s.cur.cfg.errMode len cap)) := by
  unfold errUpdate errResult
  cases s.cur.cfg.errMode
  · dsimp only; split <;> rfl
  · rfl

/-- The indices of a pin set are those of the register on it. -/
theorem zipIdx_lt {ps : List PinId} {n : Nat} (h : ps.length ≤ n) :
    ∀ e ∈ ps.zipIdx.reverse, e.2 < n := by
  intro e he
  have := List.snd_lt_of_mem_zipIdx (List.mem_reverse.1 he)
  omega

/-- The loop of TX.P counts down (R87, R90). -/
theorem zipIdx_reverse_index {ps : List PinId} {k i : Nat}
    (h : ps.zipIdx.reverse[k]?.map Prod.snd = some i) : i = ps.length - 1 - k := by
  rw [Option.map_eq_some_iff] at h
  obtain ⟨e, he, rfl⟩ := h
  have hk : k < ps.zipIdx.length := by
    have := (List.getElem?_eq_some_iff.1 he).1
    simpa using this
  rw [List.getElem?_reverse hk, List.getElem?_zipIdx] at he
  simp only [Option.map_eq_some_iff] at he
  obtain ⟨a, _, rfl⟩ := he
  simp

/-- The loop of `Sample` counts up (R91). -/
theorem zipIdx_index {ps : List PinId} {k i : Nat} (h : ps.zipIdx[k]?.map Prod.snd = some i) : i = k := by
  rw [Option.map_eq_some_iff] at h
  obtain ⟨e, he, rfl⟩ := h
  rw [List.getElem?_zipIdx] at he
  simp only [Option.map_eq_some_iff] at he
  obtain ⟨a, _, rfl⟩ := he
  simp

section Parallel
variable {s : State} (hout : s.cur.cfg.outPins.length = 8) (v : Nat)
include hout

/-- The body of TX.P when no call fails (R87): 16 events, then ERR. -/
theorem parallelTransmit_run (h : s.NoFail 16) :
    parallelTransmit v s = .done () ((((s.perform 16 (txPEvents s.cur.cfg v)).setReg
      (some (encodeValueBits v 8))).setIdx none).setErr
        (some (errResult s.cur.cfg.errMode (max (blen v) 8) 8))) := by
  have hlen : s.cur.cfg.outPins.zipIdx.reverse.length = 8 := by simp [hout]
  obtain ⟨i, hi⟩ := writePins_run (s := s.setReg (some (encodeValueBits v 8))) (r := encodeValueBits v 8) rfl
    s.cur.cfg.outPins.zipIdx.reverse (zipIdx_lt (by rw [length_encode]; omega)) (by rw [hlen]; exact h)
  rw [hlen] at hi
  simp only [parallelTransmit, State.setReg_cur, hi, Res.bind_done, errUpdate_eq]
  simp [State.regLength, Config.nout, hout, length_encode, txPEvents, State.setReg_perform]

/-- The body of TX.P when call `n` fails first (R117): ERR is not updated, `I` is `7 - n / 2`. -/
theorem parallelTransmit_fail {n : Nat} (hn : n < 16) (h : s.FirstFail n) :
    ∃ fs c, cutAtCall n (txPEvents s.cur.cfg v) = some (fs, c) ∧
      parallelTransmit v s = .raised (.pinAccessFailure c (some (7 - n / 2)))
        (((s.perform (n + 1) fs).setReg (some (encodeValueBits v 8))).setIdx (some (7 - n / 2))) := by
  have hlen : s.cur.cfg.outPins.zipIdx.reverse.length = 8 := by simp [hout]
  obtain ⟨fs, c, i, hc, hi, hw⟩ := writePins_fail (s := s.setReg (some (encodeValueBits v 8)))
    (r := encodeValueBits v 8) rfl s.cur.cfg.outPins.zipIdx.reverse
    (zipIdx_lt (by rw [length_encode]; omega)) (n := n) (by rw [hlen]; exact hn) h
  have := zipIdx_reverse_index hi
  rw [hout] at this
  obtain rfl : i = 7 - n / 2 := by omega
  exact ⟨fs, c, hc, by simp only [parallelTransmit, State.setReg_cur, hw, Res.bind_raised]; rfl⟩

end Parallel

section Sample
variable (s : State)

/-- `Sample` when no call fails (R91): the result is what the world presented at each read. -/
theorem sample_run (h : s.NoFail (2 * s.cur.cfg.nin)) :
    sample s = .done (s.sampleLevels s.cur.cfg.nin)
      ((s.perform (2 * s.cur.cfg.nin) (sampleEvents s.cur.cfg (s.sampleLevels s.cur.cfg.nin))).setIdx none) := by
  obtain ⟨i, hi⟩ := samplePins_run s s.cur.cfg.inPins.zipIdx [] (by simpa [Config.nin] using h)
  simp only [sample, hi, Res.bind_done]
  simp [Config.nin, sampleEvents, List.zipIdx_map_fst]

/-- `Sample` when call `n` fails first (R92, R117): no result. -/
theorem sample_fail {n : Nat} (hn : n < 2 * s.cur.cfg.nin) (h : s.FirstFail n) :
    ∃ fs c, cutAtCall n (sampleEvents s.cur.cfg (s.sampleLevels s.cur.cfg.nin)) = some (fs, c) ∧
      sample s = .raised (.pinAccessFailure c (some (n / 2)))
        ((s.perform (n + 1) fs).setIdx (some (n / 2))) := by
  obtain ⟨fs, c, i, hc, hi, hw⟩ := samplePins_fail s s.cur.cfg.inPins.zipIdx [] (n := n)
    (by simpa [Config.nin] using hn) h
  obtain rfl := zipIdx_index hi
  refine ⟨fs, c, ?_, by simp only [sample, hw, Res.bind_raised]⟩
  simpa [Config.nin, sampleEvents, List.zipIdx_map_fst] using hc

end Sample

section Bus
variable (s : State) (v : Nat)

/-- The body of TX.B when no call fails (R95, R96): `7 * W` events, then ERR. -/
theorem busTransmit_run (h : s.NoFail (5 * s.cur.cfg.w)) :
    busTransmit v s = .done () ((((s.perform (5 * s.cur.cfg.w) (busEvents s.cur.cfg v)).setReg
      (some (encodeValueBits v s.cur.cfg.w))).setIdx none).setErr
        (some (errResult s.cur.cfg.errMode (max (blen v) s.cur.cfg.w) s.cur.cfg.w))) := by
  obtain ⟨j, hj⟩ := bitLoop_run
    (s := (s.setReg (some (encodeValueBits v s.cur.cfg.w))).setIdx (some 0))
    (r := encodeValueBits v s.cur.cfg.w) rfl s.cur.cfg.w (i := 0) rfl
    (by rw [length_encode]; omega) (by simp) h
  simp only [busTransmit, State.setReg_cur, State.setIdx_cur] at hj ⊢
  simp only [hj, Res.bind_done, errUpdate_eq]
  simp [State.regLength, length_encode, busEvents, State.setReg_perform, State.setIdx_perform]

/-- The body of TX.B when call `n` fails first (R117): ERR is not updated, `I` is the bit-cycle `n / 5`. -/
theorem busTransmit_fail {n : Nat} (hn : n < 5 * s.cur.cfg.w) (h : s.FirstFail n) :
    ∃ fs c, cutAtCall n (busEvents s.cur.cfg v) = some (fs, c) ∧
      busTransmit v s = .raised (.pinAccessFailure c (some (n / 5)))
        (((s.perform (n + 1) fs).setReg (some (encodeValueBits v s.cur.cfg.w))).setIdx (some (n / 5))) := by
  obtain ⟨fs, c, hc, hb⟩ := bitLoop_fail
    (s := (s.setReg (some (encodeValueBits v s.cur.cfg.w))).setIdx (some 0))
    (r := encodeValueBits v s.cur.cfg.w) rfl s.cur.cfg.w (i := 0) rfl
    (by rw [length_encode]; omega) (by simp) hn h
  refine ⟨fs, c, by simpa [busEvents] using hc, ?_⟩
  simp only [busTransmit, State.setReg_cur, State.setIdx_cur] at hb ⊢
  simp only [hb, Res.bind_raised, Nat.zero_add]
  rfl

end Bus

end Sys2Proof.Machine
end

