-- ==== Sys2Proof/Laws/Kept.lean ====
section
/-! SUPPORT. What every primitive keeps, every command keeps: one induction over the loops for all invariants. -/

namespace Sys2Proof.Machine

/-- `P` holds of the state a part of a command ends in, normally or by a raise. -/
def Res.All {α : Type} (P : State → Prop) : Res α → Prop
  | .done _ t => P t
  | .raised _ t => P t
  | .refused _ => True

theorem Res.All.done {α : Type} {P : State → Prop} {a : α} {t : State} (h : P t) : (Res.done a t).All P := h

theorem Res.All.bind {α β : Type} {P : State → Prop} {x : Res α} {f : α → State → Res β} (hx : x.All P)
    (hf : ∀ a t, P t → (f a t).All P) : (x.bind f).All P := by
  cases x with
  | done a t => exact hf a t hx
  | raised e t => exact hx
  | refused r => trivial

/-- `P` is kept by the pin calls, the delay and the transient writes of a transmit or a sample. -/
structure PinKept (P : State → Prop) : Prop where
  perform : ∀ s, P s → ∀ n e, (∀ p b, e = .wr p b → (s.pins.get p).dir = .out) → P (s.perform n [e])
  setIdx : ∀ s i, P s → P (s.setIdx i)
  setReg : ∀ s r, P s → P (s.setReg r)
  errUpdate : ∀ s len cap, P s → P (errUpdate len cap s)

/-- `P` is kept by everything a command writes. -/
structure CommandKept (P : State → Prop) : Prop extends PinKept P where
  setErrNone : ∀ s, P s → P (s.setErr none)
  setLife : ∀ s l, P s → P (s.setLife l)
  setBusy : ∀ s b, P s → P (s.setBusy b)
  pushResponse : ∀ s r, P s → P (s.pushResponse r)

section PinKept
variable {P : State → Prop} (hP : PinKept P)
include hP

theorem PinKept.pinCfg {s : State} (h : P s) (p : PinId) (d : IoDir) : (pinCfg p d s).All P := by
  rcases Bool.eq_false_or_eq_true (s.answer s.calls).fails with hf | hf
  · rw [pinCfg_failed hf]; exact hP.perform s h 1 _ (by simp)
  · rw [pinCfg_done hf]; exact hP.perform s h 1 _ (by simp)

theorem PinKept.pinWr {s : State} (h : P s) (p : PinId) (b : Bit) : (pinWr p b s).All P := by
  by_cases hd : (s.pins.get p).dir = .out
  · rcases Bool.eq_false_or_eq_true (s.answer s.calls).fails with hf | hf
    · rw [pinWr_failed hf hd]; exact hP.perform s h 1 _ (by simp)
    · rw [pinWr_done hf hd]
      refine hP.perform s h 1 _ ?_
      intro q c hq
      obtain ⟨rfl, -⟩ := Event.wr.inj hq
      exact hd
  · rw [Machine.pinWr, if_neg hd]; trivial

theorem PinKept.pinRd {s : State} (h : P s) (p : PinId) : (pinRd p s).All P := by
  by_cases hd : (s.pins.get p).dir = .inp
  · rcases Bool.eq_false_or_eq_true (s.answer s.calls).fails with hf | hf
    · rw [pinRd_failed hf hd]; exact hP.perform s h 1 _ (by simp)
    · rw [pinRd_done hf hd]; exact hP.perform s h 1 _ (by simp)
  · rw [Machine.pinRd, if_neg hd]; trivial

theorem PinKept.pinResetAll {s : State} (h : P s) : (pinResetAll s).All P := by
  rcases Bool.eq_false_or_eq_true (s.answer s.calls).fails with hf | hf
  · rw [pinResetAll_failed hf]; exact hP.perform s h 1 _ (by simp)
  · rw [pinResetAll_done hf]; exact hP.perform s h 1 _ (by simp)

theorem PinKept.delay {s : State} (h : P s) (t : Duration) : (delay t s).All P :=
  hP.perform s h 0 (.dl t) (by simp)

omit hP in
theorem regAtIndex_all {P : State → Prop} {s : State} (h : P s) : (regAtIndex s).All P := by
  unfold regAtIndex
  split
  · split
    · exact h
    · trivial
  · trivial

theorem PinKept.writePins (es : List (PinId × Nat)) {s : State} (h : P s) : (writePins es s).All P := by
  induction es generalizing s with
  | nil => exact h
  | cons e rest ih =>
    exact (hP.pinCfg (hP.setIdx s _ h) _ _).bind fun _ _ h => (regAtIndex_all h).bind fun b _ h =>
      (hP.pinWr h _ b).bind fun _ _ h => ih h

theorem PinKept.samplePins (es : List (PinId × Nat)) (r : BitReg) {s : State} (h : P s) :
    (samplePins es r s).All P := by
  induction es generalizing s r with
  | nil => exact h
  | cons e rest ih =>
    exact (hP.pinCfg (hP.setIdx s _ h) _ _).bind fun _ _ h => (hP.pinRd h _).bind fun _ _ h => ih _ h

theorem PinKept.sample {s : State} (h : P s) : (sample s).All P :=
  (hP.samplePins _ _ h).bind fun _ _ h => hP.setIdx _ _ h

theorem PinKept.parallelTransmit (v : Nat) {s : State} (h : P s) : (parallelTransmit v s).All P :=
  (hP.writePins _ (hP.setReg s _ h)).bind fun _ _ h => hP.errUpdate _ _ _ (hP.setIdx _ _ h)

theorem PinKept.clockPulse {s : State} (h : P s) : (clockPulse s).All P :=
  (hP.pinWr h _ _).bind fun _ _ h => (hP.delay h _).bind fun _ _ h => (hP.pinWr h _ _).bind fun _ _ h =>
    hP.delay h _

theorem PinKept.bitCycle {s : State} (h : P s) : (bitCycle s).All P :=
  (hP.pinCfg h _ _).bind fun _ _ h => (hP.pinCfg h _ _).bind fun _ _ h => (regAtIndex_all h).bind fun _ _ h =>
    (hP.pinWr h _ _).bind fun _ _ h => hP.clockPulse h

theorem PinKept.bitLoop (k : Nat) {s : State} (h : P s) : (bitLoop k s).All P := by
  induction k generalizing s with
  | zero => exact h
  | succ k ih =>
    rw [Machine.bitLoop]
    split
    · exact (hP.bitCycle h).bind fun _ _ h => ih (hP.setIdx _ _ h)
    · exact h

theorem PinKept.busTransmit (v : Nat) {s : State} (h : P s) : (busTransmit v s).All P :=
  (hP.bitLoop _ (hP.setIdx _ _ (hP.setReg s _ h))).bind fun _ _ h =>
    hP.errUpdate _ _ _ (hP.setIdx _ _ h)

end PinKept

section CommandKept
variable {P : State → Prop} (hP : CommandKept P)
include hP

theorem CommandKept.finish {s : State} (h : P s) (r : Response) : P (finish r s) :=
  hP.pushResponse _ _ (hP.setBusy _ _ (hP.setIdx _ _ (hP.setReg _ _ h)))

/-- A command keeps what its body keeps. -/
theorem CommandKept.runCommand {m : Mode} {legal : Life} {body : State → Res (Option BitReg)}
    (hb : ∀ s, P s → (body s).All P) {s t : State} (h : P s) (hx : runCommand m legal body s = .next t) :
    P t := by
  obtain ⟨-, ⟨-, r, u, hu, rfl⟩ | ⟨-, x, u, hu, rfl⟩ | ⟨-, rfl⟩⟩ := runCommand_cases hx
  · have := hb _ (hP.setBusy s true h); rw [hu] at this; exact hP.finish this _
  · have := hb _ (hP.setBusy s true h); rw [hu] at this; exact hP.finish this _
  · exact hP.finish (hP.setBusy s true h) _

theorem CommandKept.openInstance {s : State} (h : P s) : (openInstance s).All P := by
  unfold Machine.openInstance
  dsimp only
  split
  · exact hP.setLife _ _ (hP.setErrNone _ h)
  · trivial

theorem CommandKept.releaseInstance {s : State} (h : P s) : (releaseInstance s).All P :=
  (hP.pinResetAll h).bind fun _ _ h => hP.setLife _ _ (hP.setErrNone _ h)

omit hP in
theorem nonNegative_all {P : State → Prop} {s : State} (v : Int) (h : P s) : (nonNegative v s).All P := by
  unfold nonNegative; split <;> exact h

/-- What every primitive keeps, every command keeps. -/
theorem CommandKept.exec (i : Instr) {s t : State} (h : P s) (hx : exec i s = .next t) : P t := by
  cases i with
  | openP => exact hP.runCommand (fun s h => hP.openInstance h) h hx
  | openB => exact hP.runCommand (fun s h => hP.openInstance h) h hx
  | closeP => exact hP.runCommand (fun s h => hP.releaseInstance h) h hx
  | closeB =>
    exact hP.runCommand (fun s h => (hP.busTransmit 0 h).bind fun _ _ h => hP.releaseInstance h) h hx
  | txP v =>
    exact hP.runCommand (fun s h => (nonNegative_all v h).bind fun n _ h =>
      (hP.parallelTransmit n h).bind fun _ _ h => .done h) h hx
  | txB v =>
    exact hP.runCommand (fun s h => (nonNegative_all v h).bind fun n _ h =>
      (hP.busTransmit n h).bind fun _ _ h => .done h) h hx
  | rxP =>
    exact hP.runCommand (fun s h => (hP.sample h).bind fun r _ h => Res.All.done (a := some r) h) h hx
  | rxB =>
    exact hP.runCommand (fun s h => (hP.sample h).bind fun r _ h => Res.All.done (a := some r) h) h hx

end CommandKept

end Sys2Proof.Machine
end

