-- ==== Sys2Proof/Laws/System.lean ====
section
/-! SUPPORT. Systems of instances (R58, R133): which configurations are open, and when they stay disjoint. -/

namespace Sys2Proof

/-- Fewer instances are disjoint where more are. -/
theorem Config.allDisjoint_sublist {cs ds : List Config} (h : cs.Sublist ds)
    (hd : Config.allDisjoint ds = true) : Config.allDisjoint cs = true := by
  induction h with
  | slnil => rfl
  | cons a hs ih =>
    simp only [Config.allDisjoint, Bool.and_eq_true] at hd
    exact ih hd.2
  | cons_cons a hs ih =>
    simp only [Config.allDisjoint, Bool.and_eq_true, List.all_eq_true] at hd ⊢
    exact ⟨fun x hx => hd.1 x (hs.subset hx), ih hd.2⟩

end Sys2Proof

namespace Sys2Proof.Machine

/-- The configurations of the open instances of a list. -/
def openOf (bs : List Block) : List Config := (bs.filter fun b => decide (b.life = .opened)).map Block.cfg

theorem openOf_append (bs cs : List Block) : openOf (bs ++ cs) = openOf bs ++ openOf cs := by
  simp [openOf]

/-- The open configurations, the addressed instance's in its place. -/
theorem State.openConfigs_eq (s : State) :
    s.openConfigs = openOf s.before ++ ((if s.cur.life = .opened then [s.cur.cfg] else []) ++ openOf s.after) := by
  show openOf (s.before ++ s.cur :: s.after) = _
  rw [openOf_append]
  congr 1
  by_cases h : s.cur.life = .opened <;> simp [openOf, h]

/-- Disjointness depends on the configurations and the lifecycle states alone. -/
theorem State.openDisjoint_congr {s t : State} (hb : t.before = s.before) (ha : t.after = s.after)
    (hc : t.cur.cfg = s.cur.cfg) (hl : t.cur.life = s.cur.life) : t.openDisjoint = s.openDisjoint := by
  unfold State.openDisjoint
  rw [State.openConfigs_eq, State.openConfigs_eq, hb, ha, hc, hl]

/-- Closing the addressed instance, or leaving its lifecycle state as it is, keeps the open instances disjoint. -/
theorem State.openDisjoint_of_closed {s t : State} (hb : t.before = s.before) (ha : t.after = s.after)
    (hl : t.cur.life = .closed) (h : s.openDisjoint = true) : t.openDisjoint = true := by
  unfold State.openDisjoint at h ⊢
  rw [State.openConfigs_eq] at h ⊢
  refine Config.allDisjoint_sublist ?_ h
  rw [hb, ha, hl, if_neg (by simp)]
  exact List.Sublist.append_left (List.sublist_append_right _ _) _

end Sys2Proof.Machine
end

