-- ==== Sys2Proof/Laws/Exec.lean ====
section
/-! SUPPORT. The inversion of `exec`: every way a command that answers a next state can have gone. -/

namespace Sys2Proof.Machine

/-- What a command performs between its acceptance and its end. -/
def bodyOf : Instr → State → Res (Option BitReg)
  | .openP => openInstance
  | .txP v => fun s =>
    (nonNegative v s).bind fun n s => (parallelTransmit n s).bind fun _ s => .done none s
  | .rxP => fun s => (sample s).bind fun r s => .done (some r) s
  | .closeP => releaseInstance
  | .openB => openInstance
  | .txB v => fun s => (nonNegative v s).bind fun n s => (busTransmit n s).bind fun _ s => .done none s
  | .rxB => fun s => (sample s).bind fun r s => .done (some r) s
  | .closeB => fun s => (busTransmit 0 s).bind fun _ s => releaseInstance s

/-- Every command is one run of its body, of its own mode, legal in its own lifecycle state (R63, R66). -/
theorem exec_eq_run (i : Instr) (s : State) : exec i s = runCommand i.mode i.legalLife (bodyOf i) s := by
  cases i <;> rfl

/-- The configuration of a supported instance, clause by clause (R16). -/
theorem wf_clauses {c : Config} (h : c.wf = true) :
    1 ≤ c.w ∧ (c.mode = .par → c.w = 8) ∧ c.outPins.length = 8 ∧ 1 ≤ c.nin ∧
      Config.minSettle ≤ c.tSettle ∧ c.pins.Nodup := by
  simp only [Config.wf, Config.widthOk, Config.noutOk, Config.ninOk, Config.settleOk, Config.pinsDistinct,
    Bool.and_eq_true, Bool.or_eq_true, decide_eq_true_eq] at h
  obtain ⟨⟨⟨⟨⟨hw, hm⟩, ho⟩, hn⟩, ht⟩, hd⟩ := h
  refine ⟨hw, fun hp => ?_, ho, hn, ht, hd⟩
  rcases hm with hm | hm
  · rw [hp] at hm; cases hm
  · exact hm

section Finish
variable (r : Response) (s : State)

@[simp] theorem finish_setReg (x : Option BitReg) : finish r (s.setReg x) = finish r s := rfl
@[simp] theorem finish_setIdx (x : Option Nat) : finish r (s.setIdx x) = finish r s := rfl
@[simp] theorem finish_setBusy (x : Bool) : finish r (s.setBusy x) = finish r s := rfl

/-- On an idle instance the end of a command leaves only the response and what its parts did. -/
theorem finish_idle {s : State} (h : s.cur.Idle) (r : Response) : finish r s = s.pushResponse r := by
  rw [← finish_busy h r, finish_setBusy]

end Finish

/-- Every way a command ends: the state it leaves is `finish` of a response and of the work it did. -/
inductive Ends (s : State) : Instr → State → Prop
  | lifecycle {i} (h : s.cur.life ≠ i.legalLife) :
      Ends s i (finish ⟨.lifecycleViolation s.cur.life, none⟩ s)
  | opened {i} (hk : i.kind = .opens) (hl : s.cur.life = .closed)
      (hd : (s.setLife .opened).openDisjoint = true) :
      Ends s i (finish .okay ((s.setErr none).setLife .opened))
  | invalid {i} {v : Int} (hv : v < 0) (hi : i = .txP v ∨ i = .txB v) (hl : s.cur.life = .opened) :
      Ends s i (finish ⟨.invalidInput v, none⟩ s)
  | txPDone (v : Nat) (hl : s.cur.life = .opened) (h : s.NoFail 16) :
      Ends s (.txP (v : Int)) (finish .okay ((s.perform 16 (txPEvents s.cur.cfg v)).setErr
        (some (errResult s.cur.cfg.errMode (max (blen v) 8) 8))))
  | txPFail (v : Nat) (hl : s.cur.life = .opened) {n es c} (hn : n < 16) (h : s.FirstFail n)
      (hc : cutAtCall n (txPEvents s.cur.cfg v) = some (es, c)) :
      Ends s (.txP (v : Int)) (finish ⟨.pinAccessFailure c (some (7 - n / 2)), none⟩ (s.perform (n + 1) es))
  | txBDone (v : Nat) (hl : s.cur.life = .opened) (h : s.NoFail (5 * s.cur.cfg.w)) :
      Ends s (.txB (v : Int)) (finish .okay ((s.perform (5 * s.cur.cfg.w) (busEvents s.cur.cfg v)).setErr
        (some (errResult s.cur.cfg.errMode (max (blen v) s.cur.cfg.w) s.cur.cfg.w))))
  | txBFail (v : Nat) (hl : s.cur.life = .opened) {n es c} (hn : n < 5 * s.cur.cfg.w) (h : s.FirstFail n)
      (hc : cutAtCall n (busEvents s.cur.cfg v) = some (es, c)) :
      Ends s (.txB (v : Int)) (finish ⟨.pinAccessFailure c (some (n / 5)), none⟩ (s.perform (n + 1) es))
  | rxDone {i} (hk : i.kind = .samples) (hl : s.cur.life = .opened) (h : s.NoFail (2 * s.cur.cfg.nin)) :
      Ends s i (finish ⟨.ok, some (s.sampleLevels s.cur.cfg.nin)⟩
        (s.perform (2 * s.cur.cfg.nin) (sampleEvents s.cur.cfg (s.sampleLevels s.cur.cfg.nin))))
  | rxFail {i} (hk : i.kind = .samples) (hl : s.cur.life = .opened) {n es c} (hn : n < 2 * s.cur.cfg.nin)
      (h : s.FirstFail n)
      (hc : cutAtCall n (sampleEvents s.cur.cfg (s.sampleLevels s.cur.cfg.nin)) = some (es, c)) :
      Ends s i (finish ⟨.pinAccessFailure c (some (n / 2)), none⟩ (s.perform (n + 1) es))
  | closePDone (hl : s.cur.life = .opened) (h : s.NoFail 1) :
      Ends s .closeP (finish .okay (((s.perform 1 [.rstAll]).setErr none).setLife .closed))
  | closePFail (hl : s.cur.life = .opened) (h : s.FirstFail 0) :
      Ends s .closeP (finish ⟨.pinAccessFailure .resetAll s.cur.idx, none⟩ (s.perform 1 [.fail .resetAll]))
  | closeBDone (hl : s.cur.life = .opened) (h : s.NoFail (5 * s.cur.cfg.w + 1)) :
      Ends s .closeB (finish .okay (((s.perform (5 * s.cur.cfg.w + 1)
        (busEvents s.cur.cfg 0 ++ [.rstAll])).setErr none).setLife .closed))
  | closeBRelease (hl : s.cur.life = .opened) (h : s.FirstFail (5 * s.cur.cfg.w)) :
      Ends s .closeB (finish ⟨.pinAccessFailure .resetAll none, none⟩
        ((s.perform (5 * s.cur.cfg.w + 1) (busEvents s.cur.cfg 0 ++ [.fail .resetAll])).setErr (some false)))
  | closeBFail (hl : s.cur.life = .opened) {n es c} (hn : n < 5 * s.cur.cfg.w) (h : s.FirstFail n)
      (hc : cutAtCall n (busEvents s.cur.cfg 0) = some (es, c)) :
      Ends s .closeB (finish ⟨.pinAccessFailure c (some (n / 5)), none⟩ (s.perform (n + 1) es))

/-- ERR after the teardown transmit is 0 in both modes (R111). -/
theorem errResult_zero (m : ErrMode) {w : Nat} (hw : 1 ≤ w) : errResult m (max (blen 0) w) w = false := by
  have h0 : blen 0 = 1 := rfl
  cases m
  · rfl
  · simp only [errResult, h0, decide_eq_false_iff_not]; omega

/-- What a command answers, as `runCommand` makes it of the body's outcome. -/
def endOf : Res (Option BitReg) → Host.Outcome State Fault Refusal
  | .done r t => .next (returnOk r t)
  | .raised x t => .next (raiseStatus x t)
  | .refused r => .refused r

/-- A command in a supported and legal state answers what its body comes to. -/
theorem exec_legal {i : Instr} {s : State} (h : s.Supported i.mode) (hl : s.cur.life = i.legalLife) :
    exec i s = endOf (bodyOf i (s.setBusy true)) := by
  rw [exec_eq_run, runCommand_supported h, if_pos hl]
  cases bodyOf i (s.setBusy true) <;> rfl

/-- The release when it completes (R110). -/
theorem releaseInstance_done {s : State} (h : (s.answer s.calls).fails = false) :
    releaseInstance s = .done none (((s.perform 1 [.rstAll]).setErr none).setLife .closed) := by
  rw [releaseInstance, pinResetAll_done h, Res.bind_done]

/-- The release when it fails (R110). -/
theorem releaseInstance_failed {s : State} (h : (s.answer s.calls).fails = true) :
    releaseInstance s = .raised (.pinAccessFailure .resetAll s.cur.idx) (s.perform 1 [.fail .resetAll]) := by
  rw [releaseInstance, pinResetAll_failed h, Res.bind_raised]

section Ends
variable {i : Instr} {s : State}

theorem open_ends (hk : i.kind = .opens) (hl : s.cur.life = .closed)
    (hx : exec i s = endOf (openInstance (s.setBusy true))) :
    (∃ t, exec i s = .next t ∧ Ends s i t) ∨
      (i.kind = .opens ∧ s.cur.life = .closed ∧ (s.setLife .opened).openDisjoint = false ∧
        exec i s = .refused .sharedPins) := by
  have hd : (((s.setBusy true).setErr none).setLife .opened).openDisjoint = (s.setLife .opened).openDisjoint :=
    State.openDisjoint_congr rfl rfl rfl rfl
  cases hs : (s.setLife .opened).openDisjoint with
  | true =>
    left
    refine ⟨_, ?_, .opened hk hl hs⟩
    rw [hx, openInstance, hd, hs]
    rfl
  | false =>
    right
    refine ⟨hk, hl, rfl, ?_⟩
    rw [hx, openInstance, hd, hs]
    rfl

theorem rx_ends (hk : i.kind = .samples) (hl : s.cur.life = .opened)
    (hx : exec i s = endOf ((sample (s.setBusy true)).bind fun r s => .done (some r) s)) :
    ∃ t, exec i s = .next t ∧ Ends s i t := by
  rcases s.noFail_or_firstFail (2 * s.cur.cfg.nin) with hf | ⟨n, hn, hf⟩
  · refine ⟨_, ?_, .rxDone hk hl hf⟩
    rw [hx, sample_run (s.setBusy true) hf]
    rfl
  · obtain ⟨es, c, he, hs⟩ := sample_fail (s.setBusy true) hn hf
    refine ⟨_, ?_, .rxFail hk hl hn hf he⟩
    rw [hx, hs]
    rfl

theorem txP_ends {v : Int} (ho : s.cur.cfg.outPins.length = 8) (hl : s.cur.life = .opened)
    (hx : exec (.txP v) s = endOf (bodyOf (.txP v) (s.setBusy true))) :
    ∃ t, exec (.txP v) s = .next t ∧ Ends s (.txP v) t := by
  rcases lt_or_ge v 0 with hv | hv
  · exact ⟨_, by rw [hx]; simp only [bodyOf, nonNegative, if_pos hv]; rfl, .invalid hv (.inl rfl) hl⟩
  · obtain ⟨m, rfl⟩ := Int.eq_ofNat_of_zero_le hv
    rcases s.noFail_or_firstFail 16 with hf | ⟨n, hn, hf⟩
    · refine ⟨_, ?_, .txPDone m hl hf⟩
      rw [hx]
      simp only [bodyOf, nonNegative, if_neg (Int.not_lt.2 hv), Int.toNat_natCast, Res.bind_done]
      rw [parallelTransmit_run (s := s.setBusy true) ho m hf]
      rfl
    · obtain ⟨es, c, he, hs⟩ := parallelTransmit_fail (s := s.setBusy true) ho m hn hf
      refine ⟨_, ?_, .txPFail m hl hn hf he⟩
      rw [hx]
      simp only [bodyOf, nonNegative, if_neg (Int.not_lt.2 hv), Int.toNat_natCast, Res.bind_done]
      rw [hs]
      rfl

theorem txB_ends {v : Int} (hl : s.cur.life = .opened)
    (hx : exec (.txB v) s = endOf (bodyOf (.txB v) (s.setBusy true))) :
    ∃ t, exec (.txB v) s = .next t ∧ Ends s (.txB v) t := by
  rcases lt_or_ge v 0 with hv | hv
  · exact ⟨_, by rw [hx]; simp only [bodyOf, nonNegative, if_pos hv]; rfl, .invalid hv (.inr rfl) hl⟩
  · obtain ⟨m, rfl⟩ := Int.eq_ofNat_of_zero_le hv
    rcases s.noFail_or_firstFail (5 * s.cur.cfg.w) with hf | ⟨n, hn, hf⟩
    · refine ⟨_, ?_, .txBDone m hl hf⟩
      rw [hx]
      simp only [bodyOf, nonNegative, if_neg (Int.not_lt.2 hv), Int.toNat_natCast, Res.bind_done]
      rw [busTransmit_run (s.setBusy true) m hf]
      rfl
    · obtain ⟨es, c, he, hs⟩ := busTransmit_fail (s.setBusy true) m hn hf
      refine ⟨_, ?_, .txBFail m hl hn hf he⟩
      rw [hx]
      simp only [bodyOf, nonNegative, if_neg (Int.not_lt.2 hv), Int.toNat_natCast, Res.bind_done]
      rw [hs]
      rfl

theorem closeP_ends (hl : s.cur.life = .opened)
    (hx : exec .closeP s = endOf (releaseInstance (s.setBusy true))) :
    ∃ t, exec .closeP s = .next t ∧ Ends s .closeP t := by
  rcases Bool.eq_false_or_eq_true (s.answer s.calls).fails with hf | hf
  · refine ⟨_, ?_, .closePFail hl ⟨fun k hk => absurd hk (by omega), hf⟩⟩
    rw [hx, releaseInstance_failed (s := s.setBusy true) hf]
    rfl
  · refine ⟨_, ?_, .closePDone hl fun k hk => ?_⟩
    · rw [hx, releaseInstance_done (s := s.setBusy true) hf]
      rfl
    · obtain rfl : k = 0 := by omega
      exact hf

/-- The state of CLOSE.B between its teardown transmit and its release (R111). -/
def afterTeardown (s : State) : State :=
  ((((s.perform (5 * s.cur.cfg.w) (busEvents s.cur.cfg 0)).setReg (some (encodeValueBits 0 s.cur.cfg.w))).setIdx
    none).setErr (some (errResult s.cur.cfg.errMode (max (blen 0) s.cur.cfg.w) s.cur.cfg.w)))

theorem afterTeardown_answer (s : State) (n : Nat) : (afterTeardown s).answer n = s.answer n := rfl
theorem afterTeardown_calls (s : State) : (afterTeardown s).calls = s.calls + 5 * s.cur.cfg.w := rfl

/-- The end of a CLOSE.B whose release completes. -/
theorem finish_closeB_done (s : State) :
    finish .okay ((((afterTeardown (s.setBusy true)).perform 1 [.rstAll]).setErr none).setLife .closed) =
      finish .okay (((s.perform (5 * s.cur.cfg.w + 1) (busEvents s.cur.cfg 0 ++ [.rstAll])).setErr none).setLife
        .closed) := by
  rw [← State.perform_perform]
  rfl

/-- The end of a CLOSE.B whose release fails. -/
theorem finish_closeB_failed (hw : 1 ≤ s.cur.cfg.w) (r : Response) :
    finish r ((afterTeardown (s.setBusy true)).perform 1 [.fail .resetAll]) =
      finish r ((s.perform (5 * s.cur.cfg.w + 1) (busEvents s.cur.cfg 0 ++ [.fail .resetAll])).setErr
        (some false)) := by
  rw [← State.perform_perform, ← errResult_zero s.cur.cfg.errMode hw]
  rfl

theorem closeB_ends (hw : 1 ≤ s.cur.cfg.w) (hl : s.cur.life = .opened)
    (hx : exec .closeB s = endOf ((busTransmit 0 (s.setBusy true)).bind fun _ s => releaseInstance s)) :
    ∃ t, exec .closeB s = .next t ∧ Ends s .closeB t := by
  rcases s.noFail_or_firstFail (5 * s.cur.cfg.w) with hf | ⟨n, hn, hf⟩
  · have hrun : busTransmit 0 (s.setBusy true) = .done () (afterTeardown (s.setBusy true)) :=
      busTransmit_run (s.setBusy true) 0 hf
    rw [hrun, Res.bind_done] at hx
    rcases Bool.eq_false_or_eq_true (s.answer (s.calls + 5 * s.cur.cfg.w)).fails with hg | hg
    · refine ⟨_, ?_, .closeBRelease hl ⟨hf, hg⟩⟩
      rw [hx, releaseInstance_failed (s := afterTeardown (s.setBusy true)) hg, ← finish_closeB_failed hw]
      rfl
    · refine ⟨_, ?_, .closeBDone hl fun k hk => ?_⟩
      · rw [hx, releaseInstance_done (s := afterTeardown (s.setBusy true)) hg, ← finish_closeB_done]
        rfl
      · rcases Nat.lt_or_ge k (5 * s.cur.cfg.w) with hk' | hk'
        · exact hf k hk'
        · obtain rfl : k = 5 * s.cur.cfg.w := by omega
          exact hg
  · obtain ⟨es, c, he, hs⟩ := busTransmit_fail (s.setBusy true) 0 hn hf
    refine ⟨_, ?_, .closeBFail hl hn hf he⟩
    rw [hx, hs]
    rfl

end Ends

/-- In a supported state every command ends in one of the ways of `Ends`, but for an OPEN that would make open
instances share a pin, which is refused. -/
theorem exec_supported (i : Instr) {s : State} (h : s.Supported i.mode) :
    (∃ t, exec i s = .next t ∧ Ends s i t) ∨
      (i.kind = .opens ∧ s.cur.life = .closed ∧ (s.setLife .opened).openDisjoint = false ∧
        exec i s = .refused .sharedPins) := by
  by_cases hl : s.cur.life = i.legalLife
  swap
  · left
    refine ⟨_, ?_, .lifecycle hl⟩
    rw [exec_eq_run, runCommand_supported h, if_neg hl]
    rfl
  have hx := exec_legal h hl
  have hc := wf_clauses h.2.2.2.1
  cases i with
  | openP => exact open_ends rfl hl hx
  | openB => exact open_ends rfl hl hx
  | rxP => exact .inl (rx_ends rfl hl hx)
  | rxB => exact .inl (rx_ends rfl hl hx)
  | txP v => exact .inl (txP_ends hc.2.2.1 hl hx)
  | txB v => exact .inl (txB_ends hl hx)
  | closeP => exact .inl (closeP_ends hl hx)
  | closeB => exact .inl (closeB_ends hc.1 hl hx)

/-- The inversion: a command that answers a next state was in a supported state and ended in one of the ways of `Ends`. -/
theorem exec_cases {i : Instr} {s t : State} (h : exec i s = .next t) : s.Supported i.mode ∧ Ends s i t := by
  have hs : s.Supported i.mode := by
    rw [exec_eq_run] at h
    exact (runCommand_cases h).1
  refine ⟨hs, ?_⟩
  rcases exec_supported i hs with ⟨u, hu, he⟩ | ⟨-, -, -, hr⟩
  · rw [h] at hu
    rwa [Host.Outcome.next.inj hu]
  · rw [h] at hr
    cases hr

end Sys2Proof.Machine
end

