-- ==== Sys2Proof/Laws/HostPort.lean ====
section
/-! SUPPORT. The host port: addressing an instance rearranges nothing, and what each action of the host does. -/

namespace Sys2Proof.Machine

/-- Addressing an instance leaves the instances, the platform and the model's own fields as they were (R133). -/
theorem State.select_spec {s t : State} {port : Nat} (h : s.select port = some t) :
    t.blocks = s.blocks ∧ s.blocks[port]? = some t.cur ∧ t.before.length = port ∧ t.pins = s.pins ∧
      t.trace = s.trace ∧ t.numbering = s.numbering ∧ t.reconfKeepsLevel = s.reconfKeepsLevel ∧
      t.calls = s.calls ∧ t.world = s.world ∧ t.host = s.host ∧ t.responses = s.responses ∧
      t.readouts = s.readouts := by
  unfold State.select at h
  split at h
  · cases h
  · next b hb =>
    obtain rfl := Option.some.inj h
    have hlt : port < s.blocks.length := (List.getElem?_eq_some_iff.1 hb).1
    have hg : s.blocks[port] = b := (List.getElem?_eq_some_iff.1 hb).2
    refine ⟨?_, hb, by simp; omega, rfl, rfl, rfl, rfl, rfl, rfl, rfl, rfl, rfl⟩
    show s.blocks.take port ++ b :: s.blocks.drop (port + 1) = s.blocks
    rw [← hg, ← List.drop_eq_getElem_cons hlt, List.take_append_drop]

/-- The port of the addressed instance is the number of instances before it. -/
theorem State.select_self (s : State) : s.select s.before.length = some s := by
  simp [State.select, State.blocks]

theorem step_idle {s : State} (h : s.host = []) : step s = .next s := by
  simp [step, hostStep, h]

theorem step_command {s t : State} {port : Nat} {cmd : CmdCode} {value : Int} {rest : List HostAction}
    (h : s.host = .command port cmd value :: rest) (ht : (s.setHost rest).select port = some t) :
    step s = exec (decode t.cur.cfg.mode cmd value) t := by
  simp [step, hostStep, h, serve, ht]

theorem step_read {s t : State} {port : Nat} {view : View} {rest : List HostAction}
    (h : s.host = .read port view :: rest) (ht : (s.setHost rest).select port = some t) :
    step s = readView view t := by
  simp [step, hostStep, h, serve, ht]

theorem step_reset {s : State} {rest : List HostAction} (h : s.host = .reset :: rest) :
    step s = resetSystem (s.setHost rest) := by
  simp [step, hostStep, h, serve]

theorem step_construct {s : State} {n : Nat} {rest : List HostAction} (h : s.host = .construct n :: rest) :
    step s = constructPlatform n (s.setHost rest) := by
  simp [step, hostStep, h, serve]

theorem step_otherUser {s : State} {c : PinCall} {rest : List HostAction} (h : s.host = .otherUser c :: rest) :
    step s = otherUser c (s.setHost rest) := by
  simp [step, hostStep, h, serve]

/-- Everything another user's pin call that answers a next state can have done: one pin call, one event, on pins no
open instance owns (R58). -/
theorem otherUser_cases {c : PinCall} {s t : State} (h : otherUser c s = .next t) :
    s.ownsPinOf c = false ∧ ∃ e, t = s.perform 1 [e] ∧ (e.call = some c ∨ e = .fail c) ∧
      ∀ p b, e = .wr p b → (s.pins.get p).dir = .out := by
  unfold otherUser at h
  split at h
  · cases h
  split at h
  · cases h
  split at h
  · cases h
  next ho =>
  simp only [Bool.not_eq_true, Bool.or_eq_false_iff] at ho
  refine ⟨ho.2, ?_⟩
  rcases Bool.eq_false_or_eq_true (s.answer s.calls).fails with hf | hf <;> cases c with
  | cfg p d =>
    first
      | (simp only [performCall, pinCfg_done hf] at h; exact ⟨_, (Host.Outcome.next.inj h).symm, .inl rfl, by simp⟩)
      | (simp only [performCall, pinCfg_failed hf] at h; exact ⟨_, (Host.Outcome.next.inj h).symm, .inr rfl, by simp⟩)
  | wr p b =>
    by_cases hd : (s.pins.get p).dir = .out
    · first
        | (simp only [performCall, pinWr_done hf hd] at h
           refine ⟨_, (Host.Outcome.next.inj h).symm, .inl rfl, ?_⟩
           intro q c hq
           obtain ⟨rfl, -⟩ := Event.wr.inj hq
           exact hd)
        | (simp only [performCall, pinWr_failed hf hd] at h
           exact ⟨_, (Host.Outcome.next.inj h).symm, .inr rfl, by simp⟩)
    · simp [performCall, pinWr, hd] at h
  | rd p =>
    by_cases hd : (s.pins.get p).dir = .inp
    · first
        | (simp only [performCall, pinRd_done hf hd, Res.bind_done] at h
           exact ⟨_, (Host.Outcome.next.inj h).symm, .inl rfl, by simp⟩)
        | (simp only [performCall, pinRd_failed hf hd, Res.bind_raised] at h
           exact ⟨_, (Host.Outcome.next.inj h).symm, .inr rfl, by simp⟩)
    · simp [performCall, pinRd, hd] at h
  | resetAll =>
    first
      | (simp only [performCall, pinResetAll_done hf] at h
         exact ⟨_, (Host.Outcome.next.inj h).symm, .inl rfl, by simp⟩)
      | (simp only [performCall, pinResetAll_failed hf] at h
         exact ⟨_, (Host.Outcome.next.inj h).symm, .inr rfl, by simp⟩)

/-- A reset that answers met idle, well-formed, disjoint instances, and leaves `resetAll` (R40). -/
theorem resetSystem_cases {s t : State} (h : resetSystem s = .next t) :
    (s.anyBusy = false ∧ s.allWf = true ∧ s.openDisjoint = true) ∧ t = s.resetAll := by
  unfold resetSystem at h
  split at h
  · cases h
  split at h
  · cases h
  split at h
  · cases h
  next hb hw hd =>
  exact ⟨⟨by simpa using hb, by simpa using hw, by simpa using hd⟩, (Host.Outcome.next.inj h).symm⟩

/-- Addressing an existing instance (R133): the state that addresses it exists. -/
theorem State.select_of_get {s : State} {port : Nat} {b : Block} (h : s.blocks[port]? = some b) :
    ∃ t, s.select port = some t := by
  simp [State.select, h]

theorem step_noSuchInstance {s : State} {port : Nat} {rest : List HostAction} (hn : s.blocks[port]? = none)
    (h : (∃ cmd value, s.host = .command port cmd value :: rest) ∨ ∃ view, s.host = .read port view :: rest) :
    step s = .refused .noSuchInstance := by
  have hs : (s.setHost rest).select port = none := by simp [State.select, hn]
  rcases h with ⟨cmd, value, h⟩ | ⟨view, h⟩ <;> simp [step, hostStep, h, serve, hs]

/-- Everything a step that answers a next state can have done. -/
theorem step_cases {s t : State} (h : step s = .next t) :
    (s.host = [] ∧ t = s) ∨
    (∃ port cmd value rest u, s.host = .command port cmd value :: rest ∧
      (s.setHost rest).select port = some u ∧ exec (decode u.cur.cfg.mode cmd value) u = .next t) ∨
    (∃ port view rest u, s.host = .read port view :: rest ∧ (s.setHost rest).select port = some u ∧
      readView view u = .next t) ∨
    (∃ n rest, s.host = .construct n :: rest ∧ s.numbering = none ∧
      t = (s.setHost rest).setNumbering (some n)) ∨
    (∃ c rest, s.host = .otherUser c :: rest ∧ otherUser c (s.setHost rest) = .next t) ∨
    (∃ rest, s.host = .reset :: rest ∧
      ((s.setHost rest).anyBusy = false ∧ (s.setHost rest).allWf = true ∧ (s.setHost rest).openDisjoint = true) ∧
      t = (s.setHost rest).resetAll) := by
  unfold step hostStep at h
  split at h
  · next hh => exact .inl ⟨hh, (Host.Outcome.next.inj h).symm⟩
  · next a rest hh =>
    cases a with
    | command port cmd value =>
      simp only [serve] at h
      split at h
      · cases h
      · next u hu => exact .inr (.inl ⟨port, cmd, value, rest, u, hh, hu, h⟩)
    | read port view =>
      simp only [serve] at h
      split at h
      · cases h
      · next u hu => exact .inr (.inr (.inl ⟨port, view, rest, u, hh, hu, h⟩))
    | construct n =>
      simp only [serve, constructPlatform] at h
      split at h
      · next hn =>
        exact .inr (.inr (.inr (.inl ⟨n, rest, hh, by simpa using hn, (Host.Outcome.next.inj h).symm⟩)))
      · cases h
    | otherUser c => exact .inr (.inr (.inr (.inr (.inl ⟨c, rest, hh, h⟩))))
    | reset => exact .inr (.inr (.inr (.inr (.inr ⟨rest, hh, (resetSystem_cases h).1, (resetSystem_cases h).2⟩))))

/-- A read of a view that answers changes nothing but what the host has read (R35). -/
theorem readView_cases {v : View} {s t : State} (h : readView v s = .next t) : ∃ r, t = s.pushReadout r := by
  unfold readView at h
  split at h
  · cases h
  split at h
  · cases h
  cases v
  case err =>
    simp only [viewField] at h
    split at h
    · cases h
    · split at h
      · exact ⟨_, (Host.Outcome.next.inj h).symm⟩
      · cases h
  all_goals exact ⟨_, (Host.Outcome.next.inj h).symm⟩

/-- In a system the spec gives a meaning to, a read is of the field (R16, R35, R58). -/
theorem readView_supported {s : State} (hw : s.cur.cfg.wf = true) (hd : s.openDisjoint = true) (v : View) :
    readView v s = viewField v s := by
  simp [readView, hw, hd]

end Sys2Proof.Machine
end

