-- ==== Sys2Proof/Laws/Levels.lean ====
section
/-! SUPPORT. What the events of the transports do to the pins, and what they say: levels, writes, pulses, time. -/

namespace Sys2Proof.Machine

/-- The pin an event concerns, `none` where it concerns none or all. -/
def Event.pin : Event → Option PinId
  | .cfg p _ => some p
  | .wr p _ => some p
  | .rd p _ => some p
  | .rstAll => none
  | .dl _ => none
  | .fail _ => none

/-- Events other than `RstAll` leave every pin alone that they do not concern. -/
theorem Pins.replay_ne {es : List Event} {q : PinId} (hr : .rstAll ∉ es) (h : ∀ e ∈ es, e.pin ≠ some q)
    (keeps : Bool) (ps : Pins) : (ps.replay keeps es).get q = ps.get q := by
  induction es generalizing ps with
  | nil => rfl
  | cons e es ih =>
    rw [Pins.replay_cons, ih (fun h => hr (List.mem_cons_of_mem _ h)) fun e he => h e (List.mem_cons_of_mem _ he)]
    have he := h e List.mem_cons_self
    cases e with
    | cfg p d => exact Pins.get_configure_ne (fun hq => he (by rw [hq]; rfl)) _ _ _
    | wr p b => exact Pins.get_drive_ne (fun hq => he (by rw [hq]; rfl)) _ _
    | rstAll => exact absurd List.mem_cons_self hr
    | rd | dl | fail => rfl

/-- What a cut list holds: events of the whole list, then `Fail` of the call (R117). -/
theorem cutAtCall_spec {n : Nat} {es fs : List Event} {c : PinCall} (h : cutAtCall n es = some (fs, c)) :
    fs.getLast? = some (.fail c) ∧ ∀ e ∈ fs, e ∈ es ∨ e = .fail c := by
  induction es generalizing n fs with
  | nil => simp [cutAtCall] at h
  | cons e es ih =>
    have grow : ∀ {m gs}, cutAtCall m es = some (gs, c) → fs = e :: gs →
        fs.getLast? = some (.fail c) ∧ ∀ x ∈ fs, x ∈ e :: es ∨ x = .fail c := by
      rintro m gs hm rfl
      obtain ⟨hl, hg⟩ := ih hm
      refine ⟨by rw [List.getLast?_cons, hl]; rfl, fun x hx => ?_⟩
      rcases List.mem_cons.1 hx with rfl | hx
      · exact .inl List.mem_cons_self
      · exact (hg x hx).imp_left (List.mem_cons_of_mem _)
    cases hcall : e.call with
    | none =>
      simp only [cutAtCall, hcall, Option.map_eq_some_iff, Prod.mk.injEq, Prod.exists] at h
      obtain ⟨gs, _, hm, hg, rfl⟩ := h
      exact grow hm hg.symm
    | some d =>
      cases n with
      | zero =>
        simp only [cutAtCall, hcall, Option.some.injEq, Prod.mk.injEq] at h
        obtain ⟨rfl, rfl⟩ := h
        simp
      | succ n =>
        simp only [cutAtCall, hcall, Option.map_eq_some_iff, Prod.mk.injEq, Prod.exists] at h
        obtain ⟨gs, _, hm, hg, rfl⟩ := h
        exact grow hm hg.symm

/-- A cut list concerns no pin the whole list does not. -/
theorem cutAtCall_ne {n : Nat} {es fs : List Event} {c : PinCall} (h : cutAtCall n es = some (fs, c))
    {q : PinId} (hr : .rstAll ∉ es) (hq : ∀ e ∈ es, e.pin ≠ some q) :
    .rstAll ∉ fs ∧ ∀ e ∈ fs, e.pin ≠ some q := by
  have hs := (cutAtCall_spec h).2
  constructor
  · intro hm
    rcases hs _ hm with h | h
    · exact hr h
    · cases h
  · intro e he
    rcases hs e he with h | rfl
    · exact hq e h
    · simp [Event.pin]

/-- One parallel pin after its two events (R87). -/
theorem Pins.get_pinWrite (ps : Pins) (keeps : Bool) (r : BitReg) (e : PinId × Nat) :
    (ps.replay keeps (pinWriteEvents r e)).get e.1 = ⟨.out, some (r.getD e.2 false)⟩ := by
  simp [pinWriteEvents, Pins.apply, Pins.get_drive_self, Pins.get_configure_self, IoDir.dir]

/-- One sampled pin after its two events (R91). -/
theorem Pins.dir_pinRead (ps : Pins) (keeps : Bool) (e : PinId × Bit) :
    ((ps.replay keeps (pinReadEvents e)).get e.1).dir = .inp := by
  simp [pinReadEvents, Pins.apply, Pins.get_configure_self, IoDir.dir]

/-- The data and the clock pin after a bit-cycle (R96, R101). -/
theorem Pins.get_bitCycle {c : Config} (hne : c.dataPin ≠ c.clockPin) (ps : Pins) (keeps : Bool) (b : Bit) :
    (ps.replay keeps (bitCycleEvents c b)).get c.dataPin = ⟨.out, some b⟩ ∧
      (ps.replay keeps (bitCycleEvents c b)).get c.clockPin = ⟨.out, some false⟩ := by
  simp [bitCycleEvents, Pins.apply, Pins.get_drive_self, Pins.get_configure_self, Pins.get_drive_ne hne,
    Pins.get_drive_ne hne.symm, Pins.get_configure_ne hne, Pins.get_configure_ne hne.symm, IoDir.dir]

/-- The events of a list of turns concern the pins of the turns. -/
theorem mem_flatMap_pin {α : Type} {f : α → List Event} {pin : α → PinId} (hf : ∀ a, ∀ e ∈ f a, e.pin = some (pin a))
    {as : List α} {q : PinId} (hq : q ∉ as.map pin) : ∀ e ∈ as.flatMap f, e.pin ≠ some q := by
  intro e he
  obtain ⟨a, ha, hea⟩ := List.mem_flatMap.1 he
  rw [hf a e hea]
  intro h
  exact hq (Option.some.inj h ▸ List.mem_map_of_mem ha)

/-- After turns on distinct pins, each pin is as its own turn left it. -/
theorem Pins.replay_turns {α : Type} {f : α → List Event} {pin : α → PinId} {Q : α → PinCell → Prop}
    (hf : ∀ a, ∀ e ∈ f a, e.pin = some (pin a))
    (hQ : ∀ a keeps (ps : Pins), Q a ((ps.replay keeps (f a)).get (pin a)))
    {as : List α} (hn : (as.map pin).Nodup) (keeps : Bool) (ps : Pins) :
    ∀ a ∈ as, Q a ((ps.replay keeps (as.flatMap f)).get (pin a)) := by
  induction as generalizing ps with
  | nil => intro a ha; cases ha
  | cons b bs ih =>
    rw [List.map_cons, List.nodup_cons] at hn
    intro a ha
    rw [List.flatMap_cons, Pins.replay_append]
    rcases List.mem_cons.1 ha with rfl | ha
    · have hnr : Event.rstAll ∉ bs.flatMap f := by
        intro h
        obtain ⟨c, -, hc⟩ := List.mem_flatMap.1 h
        cases hf c _ hc
      rw [Pins.replay_ne hnr (mem_flatMap_pin hf hn.1)]
      exact hQ a keeps ps
    · exact ih hn.2 _ a ha

theorem pinWriteEvents_pin (r : BitReg) (a : PinId × Nat) : ∀ e ∈ pinWriteEvents r a, e.pin = some a.1 := by
  intro e he
  simp only [pinWriteEvents, List.mem_cons, List.not_mem_nil, or_false] at he
  rcases he with rfl | rfl <;> rfl

theorem pinReadEvents_pin (a : PinId × Bit) : ∀ e ∈ pinReadEvents a, e.pin = some a.1 := by
  intro e he
  simp only [pinReadEvents, List.mem_cons, List.not_mem_nil, or_false] at he
  rcases he with rfl | rfl <;> rfl

/-- Bit-cycles concern the data and the clock pin alone. -/
theorem bitCycles_pin {c : Config} (bs : List Bit) {q : PinId} (hd : q ≠ c.dataPin) (hc : q ≠ c.clockPin) :
    .rstAll ∉ bs.flatMap (bitCycleEvents c) ∧ ∀ e ∈ bs.flatMap (bitCycleEvents c), e.pin ≠ some q := by
  constructor
  · simp [bitCycleEvents]
  · intro e he
    obtain ⟨b, -, hb⟩ := List.mem_flatMap.1 he
    simp only [bitCycleEvents, List.mem_cons, List.not_mem_nil, or_false] at hb
    rcases hb with rfl | rfl | rfl | rfl | rfl | rfl | rfl <;> simp [Event.pin, hd.symm, hc.symm]

/-- The pins after bit-cycles are those after the last (R101). -/
theorem Pins.get_bitCycles {c : Config} (hne : c.dataPin ≠ c.clockPin) (keeps : Bool) (bs : List Bit) (b : Bit)
    (ps : Pins) :
    (ps.replay keeps ((bs ++ [b]).flatMap (bitCycleEvents c))).get c.dataPin = ⟨.out, some b⟩ ∧
      (ps.replay keeps ((bs ++ [b]).flatMap (bitCycleEvents c))).get c.clockPin = ⟨.out, some false⟩ := by
  rw [List.flatMap_append, Pins.replay_append, List.flatMap_singleton]
  exact Pins.get_bitCycle hne _ keeps b

@[simp] theorem writesTo_nil (p : PinId) : writesTo p [] = [] := rfl

theorem writesTo_append (p : PinId) (es fs : List Event) :
    writesTo p (es ++ fs) = writesTo p es ++ writesTo p fs := List.filterMap_append

/-- The data pin is written the bits, in order (R100). -/
theorem writesTo_data {c : Config} (hne : c.dataPin ≠ c.clockPin) (bs : List Bit) :
    writesTo c.dataPin (bs.flatMap (bitCycleEvents c)) = bs := by
  induction bs with
  | nil => rfl
  | cons b bs ih =>
    rw [List.flatMap_cons, writesTo_append, ih]
    simp [writesTo, bitCycleEvents, hne.symm]

/-- One clock pulse a bit (R97, R99). -/
theorem clockPulses_bits {c : Config} (hne : c.dataPin ≠ c.clockPin) (bs : List Bit) :
    clockPulses c.clockPin (bs.flatMap (bitCycleEvents c)) = bs.length := by
  induction bs with
  | nil => rfl
  | cons b bs ih =>
    unfold clockPulses at ih ⊢
    rw [List.flatMap_cons, writesTo_append, List.count_append, ih, List.length_cons]
    simp [writesTo, bitCycleEvents, hne, Nat.add_comm]

/-- Two settle intervals a bit (R98). -/
theorem leastTime_bits (c : Config) (bs : List Bit) :
    leastTime (bs.flatMap (bitCycleEvents c)) = bs.length * (2 * c.tSettle) := by
  induction bs with
  | nil => simp [leastTime]
  | cons b bs ih =>
    unfold leastTime at ih ⊢
    rw [List.flatMap_cons, List.map_append, List.sum_append, ih, List.length_cons, Nat.succ_mul]
    simp [bitCycleEvents]
    ring

end Sys2Proof.Machine
end

