-- ==== Sys2Proof/Laws/PerInstr.lean ====
section
/-! SUPPORT. Facts proved once per constructor of `Instr`: a command's own key decodes to it. -/

namespace Sys2Proof.Laws.KeyDecodes

/-- The command's key, its mode bit over its command code, decodes to the command with its own operand (R62, R63). -/
def Statement (i : Instr) : Prop := decodeKey (decodeKeyOf i.mode (encodeCmd i)) (encodeValue i) = i

theorem openP : Statement .openP := rfl
theorem txP (v : Int) : Statement (.txP v) := by
  simp [Statement, decodeKey, decodeKeyOf, Mode.bit, Instr.mode, encodeCmd, encodeValue, Instr.operand]
theorem rxP : Statement .rxP := rfl
theorem closeP : Statement .closeP := rfl
theorem openB : Statement .openB := rfl
theorem txB (v : Int) : Statement (.txB v) := by
  simp [Statement, decodeKey, decodeKeyOf, Mode.bit, Instr.mode, encodeCmd, encodeValue, Instr.operand]
theorem rxB : Statement .rxB := rfl
theorem closeB : Statement .closeB := rfl

/-- Every command's key decodes to it. -/
theorem all (i : Instr) : Statement i := by
  cases i with
  | openP => exact openP
  | txP v => exact txP v
  | rxP => exact rxP
  | closeP => exact closeP
  | openB => exact openB
  | txB v => exact txB v
  | rxB => exact rxB
  | closeB => exact closeB

end Sys2Proof.Laws.KeyDecodes
end

