-- ==== Sys2Proof/Tests/Slice0.lean ====
section
/-! SUPPORT. The model's own tests: one ill-formed term per check, the words of the opcode map, vectors of 95_test_vectors.md, and a witness for the hypotheses of every statement that has some. -/

namespace Sys2Proof.Tests

open Sys2Proof Sys2Proof.Machine

/-! ### Small states -/

/-- A pin call the platform completes, meeting a level. -/
def okay (b : Bit) : Answer := ⟨false, b⟩

/-- A pin call the platform fails. -/
def bad : Answer := ⟨true, false⟩

/-- `n` pin calls completed, then one failed. -/
def failAt (n : Nat) : List Answer := List.replicate n (okay false) ++ [bad]

/-- A bus configuration of width `w`. -/
def busCfg (w : Nat) (m : ErrMode) : Config := { Config.initial with mode := .bus, w := w, errMode := m }

/-- One instance in lifecycle state `l` with an ERR, before a platform that answers `ws`. -/
def one (c : Config) (l : Life) (e : Option Bit) (ws : List Answer) : State :=
  { State.reset with cur := { Block.initial c with life := l, err := e }, world := ws }

/-- The parallel instance of reset, open. -/
def par (ws : List Answer) : State := one Config.initial .opened none ws

/-- A FAITHFUL bus instance of width `w`, open. -/
def bus (w : Nat) (ws : List Answer) : State := one (busCfg w .faithful) .opened none ws

/-- P5's two instances, both open, the bus instance addressed; the parallel one shows 255. -/
def two : State :=
  { State.reset with
    before := [{ Block.initial Config.initial with life := .opened, err := some false }]
    cur    := { Block.initial { busCfg 1 .faithful with inPins := [20, 21] } with life := .opened, err := some false }
    pins   := (List.range 8).map fun p => (p, ⟨.out, some true⟩)
    trace  := (List.range 8).flatMap fun p => [.cfg p .out, .wr p true]
    world  := List.replicate 6 (okay false) }

/-- The outcome is a next state that passes the check. -/
def nextWith (p : State → Bool) : Host.Outcome State Fault Refusal → Bool
  | .next t => p t
  | .fault _ => false
  | .refused _ => false

theorem exists_of_nextWith {p : State → Bool} {o : Host.Outcome State Fault Refusal} (h : nextWith p o = true) :
    ∃ t, o = .next t ∧ p t = true := by
  cases o with
  | next t => exact ⟨t, rfl, h⟩
  | fault f => cases h
  | refused r => cases h

/-- The trace, the ERR and the last response of a state. -/
def shows (t : State) (tr : List Event) (e : Option Bit) (r : Response) : Bool :=
  decide (t.trace = tr ∧ t.cur.err = e ∧ t.responses.getLast? = some r)

/-! ### Well-formedness: one ill-formed term per check (R16, U7, R58, R62, R64) -/

theorem witness_WellFormedConfigClauses : (bus 0 []).cur.cfg.wf = false := by decide
theorem test_wf_accepts : Config.initial.wf = true ∧ (busCfg 4 .corrected).wf = true := by decide
theorem test_wf_width_zero : (busCfg 0 .faithful).widthOk = false ∧ (busCfg 0 .faithful).wf = false := by decide
theorem test_wf_parallel_width : { Config.initial with w := 9 }.widthOk = false ∧
    { Config.initial with w := 9 }.wf = false := by decide
theorem test_wf_nout : { Config.initial with outPins := [0] }.noutOk = false ∧
    { Config.initial with outPins := [0] }.wf = false := by decide
theorem test_wf_nin : { Config.initial with inPins := [] }.ninOk = false ∧
    { Config.initial with inPins := [] }.wf = false := by decide
theorem test_wf_settle : { Config.initial with tSettle := 9999 }.settleOk = false ∧
    { Config.initial with tSettle := 9999 }.wf = false := by decide
theorem test_wf_pins : { busCfg 8 .faithful with clockPin := 17 }.pinsDistinct = false ∧
    { busCfg 8 .faithful with clockPin := 17 }.wf = false := by decide
theorem test_disjoint : Config.allDisjoint [Config.initial, Config.initial] = false ∧
    Config.allDisjoint [Config.initial, { busCfg 8 .faithful with inPins := [20] }] = true := by decide
theorem test_wmax : { Config.initial with wmax := some 7 }.withinWmax = false := by decide
theorem test_instr_mode : Instr.wf Config.initial .openB = false := by decide
theorem test_instr_presentable : Instr.wf { Config.initial with vw := some 8 } (.txP 128) = false ∧
    Instr.wf { Config.initial with vw := some 8 } (.txP 127) = true := by decide

/-! ### Decoding: the words of R63, K[2] = MODE, K[1:0] = CMD -/

theorem test_decode_000 : decodeTableWord 8 0b000 = some .openP := by decide
theorem test_decode_001 : decodeTableWord 8 0b001 = some (.txP 0) := by decide
theorem test_decode_010 : decodeTableWord 8 0b010 = some .rxP := by decide
theorem test_decode_011 : decodeTableWord 8 0b011 = some .closeP := by decide
theorem test_decode_100 : decodeTableWord 8 0b100 = some .openB := by decide
theorem test_decode_101 : decodeTableWord 8 0b101 = some (.txB 0) := by decide
theorem test_decode_110 : decodeTableWord 8 0b110 = some .rxB := by decide
theorem test_decode_111 : decodeTableWord 8 0b111 = some .closeB := by decide
theorem test_decode_too_short : decodeTableWord 2 0b01 = none := by decide

/-- A finite port of 4 bits presenting 1111 presents -1 (D9). -/
theorem test_decode_port : decodePort .bus 0b01#2 0b1111#4 = .txB (-1) := by decide

/-! ### Vectors -/

/-- V3, V7, V13, V19f. -/
theorem test_encode : encodeValueBits 2 1 = [true, false] ∧
    encodeValueBits 5 8 = [false, false, false, false, false, true, false, true] ∧
    encodeValueBits 300 8 = [true, false, false, true, false, true, true, false, false] ∧
    encodeValueBits 37 4 = [true, false, false, true, false, true] := by decide

/-- V60, through a table word. -/
theorem test_openP : nextWith (fun t => decide (t.cur.life = .opened) && shows t [] none .okay)
    (step (State.reset.withFetchWord 8 0b000)) = true := by decide

/-- V62. -/
theorem test_openP_twice : nextWith (fun t => decide (t.cur.life = .opened) &&
      shows t [] (some false) ⟨.lifecycleViolation .opened, none⟩)
    (execOpenP (one Config.initial .opened (some false) [])) = true := by decide

/-- V61. -/
theorem test_openB : nextWith (fun t => decide (t.cur.life = .opened) && shows t [] none .okay)
    (step (State.reset.withFetchWord 8 0b100)) = true := by decide

/-- V26: `PW(7,0) PW(6,1) PW(5,1) PW(4,0) PW(3,1) PW(2,0) PW(1,0) PW(0,1)`, ERR 0. -/
theorem test_txP_300 : nextWith (fun t => shows t
      [.cfg 7 .out, .wr 7 false, .cfg 6 .out, .wr 6 true, .cfg 5 .out, .wr 5 true, .cfg 4 .out, .wr 4 false,
        .cfg 3 .out, .wr 3 true, .cfg 2 .out, .wr 2 false, .cfg 1 .out, .wr 1 false, .cfg 0 .out, .wr 0 true]
      (some false) .okay)
    (execTxP 300 (par (List.replicate 16 (okay false)))) = true := by decide

/-- V29b. -/
theorem test_txP_failure : nextWith (fun t => decide (t.pins = [(5, ⟨.out, none⟩), (6, ⟨.out, some false⟩),
        (7, ⟨.out, some true⟩)]) &&
      shows t [.cfg 7 .out, .wr 7 true, .cfg 6 .out, .wr 6 false, .cfg 5 .out, .fail (.wr 5 true)] none
        ⟨.pinAccessFailure (.wr 5 true) (some 5), none⟩)
    (execTxP 5 (par (failAt 5))) = true := by decide

/-- V54: the world presents 0 until after the first read, then 1. -/
theorem test_rxP_changing : nextWith (fun t => decide (t.responses.getLast? = some
      ⟨.ok, some [false, true, true, true, true, true, true, true, true]⟩))
    (execRxP (par (List.replicate 2 (okay false) ++ List.replicate 16 (okay true)))) = true := by decide

/-- V55. -/
theorem test_rxP_failure : nextWith (fun t => decide (t.trace.drop 6 = [.cfg 11 .inp, .fail (.rd 11)] ∧
      t.responses.getLast? = some ⟨.pinAccessFailure (.rd 11) (some 3), none⟩))
    (execRxP (par (failAt 7))) = true := by decide

/-- V66. -/
theorem test_closeP : nextWith (fun t => decide (t.cur.life = .closed ∧ t.pins = []) && shows t [.rstAll] none .okay)
    (execCloseP { par [okay false] with pins := [(0, ⟨.out, some true⟩)] }) = true := by decide

/-- V65. -/
theorem test_closeP_closed : nextWith (fun t => shows t [] none ⟨.lifecycleViolation .closed, none⟩)
    (execCloseP (one Config.initial .closed none [])) = true := by decide

/-- V46: `BC(1) BC(0) BC(0) BC(1)`, ERR 1 in CORRECTED mode. -/
theorem test_txB_37 : nextWith (fun t => decide (writesTo 17 t.trace = [true, false, false, true] ∧
      clockPulses 18 t.trace = 4 ∧ t.trace.length = 28 ∧ t.level 17 = some true ∧ t.level 18 = some false ∧
      t.cur.err = some true))
    (execTxB 37 (one (busCfg 4 .corrected) .opened none (List.replicate 20 (okay false)))) = true := by decide

/-- V49c: the falling write of bit-cycle 2 fails; the clock is left high. -/
theorem test_txB_failure : nextWith (fun t => decide (t.level 17 = some false ∧ t.level 18 = some true ∧
      t.trace.drop 14 = [.cfg 17 .out, .cfg 18 .out, .wr 17 false, .wr 18 true, .dl 10000, .fail (.wr 18 false)] ∧
      t.cur.err = none ∧ t.responses.getLast? = some ⟨.pinAccessFailure (.wr 18 false) (some 2), none⟩))
    (execTxB 5 (bus 8 (failAt 14))) = true := by decide

/-- P3, command 4: ERR stays 1, nine zeros. -/
theorem test_rxB : nextWith (fun t => decide (t.cur.err = some true ∧
      t.responses.getLast? = some ⟨.ok, some (List.replicate 9 false)⟩))
    (execRxB (one (busCfg 4 .corrected) .opened (some true) (List.replicate 18 (okay false)))) = true := by decide

/-- V64. -/
theorem test_rxB_closed : nextWith (fun t => shows t [] none ⟨.lifecycleViolation .closed, none⟩)
    (execRxB (one (busCfg 8 .faithful) .closed none [])) = true := by decide

/-- V69. -/
theorem test_closeB_release_fails : nextWith (fun t => decide (t.cur.life = .opened ∧ t.cur.err = some false ∧
      t.level 17 = some false ∧ t.level 18 = some false ∧ t.trace.length = 57 ∧
      t.responses.getLast? = some ⟨.pinAccessFailure .resetAll none, none⟩))
    (execCloseB (bus 8 (failAt 40))) = true := by decide

/-- P5, command 5: the bus instance's CLOSE releases the parallel instance's pins, which stays open with its ERR. -/
theorem test_closeB_two_instances : nextWith (fun t => decide (t.cur.life = .closed ∧ t.pins = [] ∧
      t.before = two.before))
    (execCloseB two) = true := by decide

/-- S8. -/
theorem test_glyph : glyph [true, false, true] = "@o@" ∧ glyph [] = "" := by decide

/-- R105, R106 after V29b. -/
theorem test_signals : nextWith (fun t => decide (t.hostSignals = ⟨false, some 2#2, some 5, none, none, true⟩ ∧
      t.outputEnable 5 = true ∧ t.outputLevel 5 = none ∧ t.outputLevel 7 = some true ∧ t.outputEnable 0 = false))
    (execTxP 5 (par (failAt 5))) = true := by decide

/-- R71. -/
theorem test_process : processCommands none = [(0b00#2, 0), (0b10#2, 0), (0b11#2, 0)] ∧
    processCommands (some 5) = [(0b00#2, 0), (0b01#2, 5), (0b11#2, 0)] := by decide

/-- R16: a read of an instance of width 0 is refused. -/
theorem test_read_ill_formed : readView .w (bus 0 []) = .refused .illFormedConfig := rfl

/-- U1: a read of an ERR without a value. -/
theorem test_read_err : readView .err (par []) = .fault .errUnspecified := rfl

/-! ### Witnesses: concrete states and operands that meet the hypotheses of each statement -/

/-- The same bus instance closed. -/
def busClosed : State := one (busCfg 8 .faithful) .closed none []

/-- Two instances with the same configuration, the other one open. -/
def sharing (c : Config) : State :=
  { State.reset with before := [{ Block.initial c with life := .opened }], cur := Block.initial c }

/-- Two open instances that share their pins. -/
def sharingOpen : State := { sharing Config.initial with cur := (par []).cur }

/-- A state in which a command is in progress. -/
def inProgress : State := { State.reset with cur := { Block.initial Config.initial with life := .opened, busy := true } }

theorem witness_DecodeOfEncode : ({ busCfg 8 .faithful with vw := some 8 } : Config).vw = some 8 ∧
    Instr.wf { busCfg 8 .faithful with vw := some 8 } (.txB (-128)) = true ∧
    Instr.wf { busCfg 8 .faithful with vw := some 8 } (.txB 127) = true ∧
    Instr.wf { busCfg 8 .faithful with vw := some 8 } .closeB = true := by decide

theorem witness_DecodeKeepsModeAndCode : (decode .bus 0b01#2 (-7)).operand = some (-7) := by decide

theorem witness_BinIsMinimal : 1 ≤ 1 ∧ bin 1 = [true] ∧ 1 ≤ 2 ∧ bin 2 = [true, false] := by decide

theorem witness_EncodeLength : 1 ≤ 8 ∧ 255 < 2 ^ 8 ∧ (encodeValueBits 255 8).length = 8 ∧ 2 ^ 8 ≤ 256 ∧
    (encodeValueBits 256 8).length = 9 := by decide

theorem witness_EncodeValue : 1 ≤ 1 ∧ encodeValueBits 2 1 = encodeValueBits 2 1 ∧ val (encodeValueBits 2 1) = 2 := by
  decide

theorem witness_EncodePadsFront : 1 ≤ 8 ∧ blen 127 < 8 ∧ 8 ≤ blen 128 ∧ 8 ≤ blen 256 := by decide

theorem witness_EncodePrefix : 1 ≤ 8 ∧ 8 ≤ (encodeValueBits 300 8).length ∧ 0 ≤ (encodeValueBits 300 8).length ∧
    9 ≤ (encodeValueBits 300 8).length := by decide

theorem witness_ErrUpdateLeaves : (par []).cur.cfg.errMode = .faithful ∧
    (one (busCfg 8 .corrected) .opened none []).cur.cfg.errMode = .corrected := by decide

/-- Pin 3 an output, pin 4 an input; the next pin call completes. -/
def mixed (keeps : Bool) (a : Answer) : State :=
  { par [a, a] with pins := [(3, ⟨.out, some true⟩), (4, ⟨.inp, none⟩)], reconfKeepsLevel := keeps }

theorem witness_PinCfgEffect : ((mixed true (okay false)).answer (mixed true (okay false)).calls).fails = false ∧
    ((mixed true (okay false)).pins.get 3).dir ≠ IoDir.inp.dir ∧
    ((mixed true (okay false)).pins.get 3).dir = IoDir.out.dir ∧ (mixed true (okay false)).reconfKeepsLevel = true ∧
    ((mixed false (okay false)).answer (mixed false (okay false)).calls).fails = false ∧
    ((mixed false (okay false)).pins.get 3).dir = IoDir.out.dir ∧
    (mixed false (okay false)).reconfKeepsLevel = false := by decide

theorem witness_PinWrEffect : ((mixed true (okay false)).pins.get 3).dir = .out ∧
    ((mixed true (okay false)).answer (mixed true (okay false)).calls).fails = false ∧
    ((mixed true (okay false)).pins.get 4).dir ≠ .out := by decide

theorem witness_PinRdEffect : ((mixed true (okay true)).pins.get 4).dir = .inp ∧
    ((mixed true (okay true)).answer (mixed true (okay true)).calls).fails = false ∧
    ((mixed true (okay true)).pins.get 3).dir ≠ .inp := by decide

theorem witness_PinResetAllEffect : (mixed true (okay true)).NoFail 2 := by decide

theorem witness_FailedPinCall : ((mixed true bad).answer (mixed true bad).calls).fails = true ∧
    ((mixed true bad).pins.get 3).dir = .out ∧ ((mixed true bad).pins.get 4).dir = .inp := by decide

theorem witness_OpenCompletes : (State.reset.setLife .opened).openDisjoint = true ∧
    State.reset.Ready .par .closed ∧ (busClosed.setLife .opened).openDisjoint = true ∧
    busClosed.Ready .bus .closed := by decide

theorem witness_OpenRefusesSharedPins : ((sharing Config.initial).setLife .opened).openDisjoint = false ∧
    (sharing Config.initial).Ready .par .closed ∧
    ((sharing (busCfg 8 .faithful)).setLife .opened).openDisjoint = false ∧
    (sharing (busCfg 8 .faithful)).Ready .bus .closed := by decide

theorem witness_TxPCompletes : (par (List.replicate 16 (okay false))).Ready .par .opened ∧
    (par (List.replicate 16 (okay false))).NoFail 16 := by decide

theorem witness_TxPStopsAtFailedCall : (par (failAt 0)).Ready .par .opened ∧ (par (failAt 0)).FirstFail 0 ∧
    (par (failAt 15)).Ready .par .opened ∧ 15 < 16 ∧ (par (failAt 15)).FirstFail 15 := by decide

theorem witness_TxPFinalLevels : (par (List.replicate 16 (okay false))).Ready .par .opened ∧
    (par (List.replicate 16 (okay false))).NoFail 16 ∧ 255 < 256 ∧
    (par (List.replicate 16 (okay false))).cur.cfg.outPins[7]? = some 7 := by decide

theorem witness_TxPOverflowLevels : (par (List.replicate 16 (okay false))).Ready .par .opened ∧
    (par (List.replicate 16 (okay false))).NoFail 16 ∧ 256 ≤ 256 ∧
    (par []).cur.cfg.errMode = .faithful ∧
    (one { Config.initial with errMode := .corrected } .opened none (List.replicate 16 (okay false))).Ready .par
      .opened ∧
    (one { Config.initial with errMode := .corrected } .opened none (List.replicate 16 (okay false))).NoFail 16 := by
  decide

theorem witness_RxCompletes : (par (List.replicate 18 (okay true))).NoFail (2 * Config.initial.nin) ∧
    (par (List.replicate 18 (okay true))).Ready .par .opened ∧
    (bus 8 (List.replicate 18 (okay true))).NoFail (2 * (busCfg 8 .faithful).nin) ∧
    (bus 8 (List.replicate 18 (okay true))).Ready .bus .opened ∧ 8 < Config.initial.nin := by decide

theorem witness_RxStopsAtFailedCall : 17 < 2 * Config.initial.nin ∧ (par (failAt 17)).FirstFail 17 ∧
    (par (failAt 17)).Ready .par .opened ∧ (bus 8 (failAt 0)).FirstFail 0 ∧ (bus 8 (failAt 0)).Ready .bus .opened := by
  decide

theorem witness_RxLeavesInputs : Instr.rxB.kind = .samples ∧
    (bus 8 (List.replicate 18 (okay true))).Ready Instr.rxB.mode .opened ∧
    (bus 8 (List.replicate 18 (okay true))).NoFail (2 * (busCfg 8 .faithful).nin) ∧
    8 ∈ (busCfg 8 .faithful).inPins ∧ 17 ∉ (busCfg 8 .faithful).inPins := by decide

theorem witness_TxBCompletes : (bus 4 (List.replicate 20 (okay false))).Ready .bus .opened ∧
    (bus 4 (List.replicate 20 (okay false))).NoFail (5 * (busCfg 4 .faithful).w) := by decide

theorem witness_TxBStopsAtFailedCall : (bus 4 (failAt 0)).Ready .bus .opened ∧ (bus 4 (failAt 0)).FirstFail 0 ∧
    (bus 4 (failAt 19)).Ready .bus .opened ∧ 19 < 5 * (busCfg 4 .faithful).w ∧ (bus 4 (failAt 19)).FirstFail 19 := by
  decide

theorem witness_TxBPulsesAndData : (bus 1 (List.replicate 5 (okay false))).Ready .bus .opened ∧
    (bus 1 (List.replicate 5 (okay false))).NoFail (5 * (busCfg 1 .faithful).w) ∧ 1 < 2 ^ (busCfg 1 .faithful).w ∧
    2 ^ (busCfg 1 .faithful).w ≤ 2 := by decide

theorem witness_TxBFinalLevels : (bus 1 (List.replicate 5 (okay false))).Ready .bus .opened ∧
    (bus 1 (List.replicate 5 (okay false))).NoFail (5 * (busCfg 1 .faithful).w) ∧ 1 < 2 ^ (busCfg 1 .faithful).w ∧
    8 ≠ (busCfg 1 .faithful).dataPin ∧ 8 ≠ (busCfg 1 .faithful).clockPin := by decide

theorem witness_TxBLeastTime : (bus 8 (List.replicate 40 (okay false))).Ready .bus .opened ∧
    (bus 8 (List.replicate 40 (okay false))).NoFail (5 * (busCfg 8 .faithful).w) := by decide

theorem witness_ClockLevelAroundBitCycles : Config.initial.dataPin ≠ Config.initial.clockPin ∧
    (Pins.get [] Config.initial.clockPin).dir ≠ .out := by decide

theorem witness_ClosePCompletes : (par [okay false]).Ready .par .opened ∧ (par [okay false]).NoFail 1 := by decide

theorem witness_ClosePFails : (par [bad]).Ready .par .opened ∧ (par [bad]).FirstFail 0 := by decide

theorem witness_CloseBCompletes : (bus 4 (List.replicate 21 (okay false))).Ready .bus .opened ∧
    (bus 4 (List.replicate 21 (okay false))).NoFail (5 * (busCfg 4 .faithful).w + 1) := by decide

theorem witness_CloseBFails : (bus 4 (failAt 19)).Ready .bus .opened ∧ 19 < 5 * (busCfg 4 .faithful).w ∧
    (bus 4 (failAt 19)).FirstFail 19 ∧ (bus 4 (failAt 20)).Ready .bus .opened ∧
    (bus 4 (failAt 20)).FirstFail (5 * (busCfg 4 .faithful).w) := by decide

theorem witness_CloseReleasesAllPins : Instr.closeB.kind = .closes ∧ two.cur.life = .opened ∧
    ∃ t, exec .closeB two = .next t ∧ decide (t.cur.life = .closed) = true :=
  ⟨rfl, rfl, exists_of_nextWith (by decide)⟩

theorem witness_ReopenAfterClose : Instr.closeB.kind = .closes ∧ Instr.closeB.mode = .bus ∧
    Instr.openB.kind = .opens ∧ Instr.openB.mode = .bus ∧ two.Ready .bus .opened ∧
    two.NoFail (Instr.closeB.callBound two.cur.cfg) ∧
    Instr.closeP.kind = .closes ∧ Instr.closeP.mode = .par ∧ Instr.openP.kind = .opens ∧ Instr.openP.mode = .par ∧
    (par [okay false]).Ready .par .opened ∧
    (par [okay false]).NoFail (Instr.closeP.callBound (par [okay false]).cur.cfg) := by decide

theorem witness_LifecycleViolationOnly : busClosed.Supported (Instr.txB (-1)).mode ∧ busClosed.cur.Idle ∧
    busClosed.cur.life ≠ (Instr.txB (-1)).legalLife ∧ (par []).Supported Instr.openP.mode ∧ (par []).cur.Idle ∧
    (par []).cur.life ≠ Instr.openP.legalLife := by decide

theorem witness_InvalidInputOnly : ((-1 : Int) < 0 ∧ (par []).Ready .par .opened ∧ (bus 8 []).Ready .bus .opened) ∧
    ∃ t, exec .closeB two = .next t ∧ decide (t.responses = [.okay]) = true :=
  ⟨by decide, exists_of_nextWith (by decide)⟩

theorem witness_StatusTable :
    (∃ t, exec (.txP (-1)) (par []) = .next t ∧
      decide ((t.responses.getLast?.map Response.status) = some (.invalidInput (-1))) = true) ∧
    (∃ t, exec (.txP 5) (par (failAt 5)) = .next t ∧
      decide ((t.responses.getLast?.map Response.status) = some (.pinAccessFailure (.wr 5 true) (some 5))) = true) ∧
    ∃ t, exec .rxB busClosed = .next t ∧
      decide ((t.responses.getLast?.map Response.status) = some (.lifecycleViolation .closed)) = true :=
  ⟨exists_of_nextWith (by decide), exists_of_nextWith (by decide), exists_of_nextWith (by decide)⟩

theorem witness_OneResponse : ∃ t, exec .rxP (par (List.replicate 18 (okay true))) = .next t ∧
    decide (t.responses = [⟨.ok, some (List.replicate 9 true)⟩]) = true := exists_of_nextWith (by decide)

theorem witness_CommandFrame : ∃ t, exec .closeB two = .next t ∧ decide (t.before = two.before) = true :=
  exists_of_nextWith (by decide)

theorem witness_PinFrame : (∃ t, exec .closeB (bus 4 (failAt 20)) = .next t ∧
    decide (¬ (Instr.closeB.kind = .closes ∧ (bus 4 (failAt 20)).cur.life = .opened ∧ t.cur.life = .closed)) = true) ∧
    0 ∉ Instr.closeB.touches (busCfg 4 .faithful) := ⟨exists_of_nextWith (by decide), by decide⟩

theorem witness_LifeFrame :
    (∃ t, exec .openB busClosed = .next t ∧ decide (t.responses = [.okay]) = true) ∧
    (∃ t, exec .closeB two = .next t ∧ decide (t.responses = [.okay]) = true) ∧
    (∃ t, exec .closeB (bus 4 (failAt 0)) = .next t ∧ decide (t.responses ≠ [.okay]) = true) ∧
    ∃ t, exec (.txB 1) two = .next t ∧ decide (t.responses = [.okay]) = true :=
  ⟨exists_of_nextWith (by decide), exists_of_nextWith (by decide), exists_of_nextWith (by decide),
    exists_of_nextWith (by decide)⟩

theorem witness_ErrFrame :
    (∃ t, exec .rxP (par (List.replicate 18 (okay true))) = .next t ∧ decide (t.cur.err = none) = true) ∧
    (∃ t, exec (.txP 5) (par (failAt 5)) = .next t ∧ decide (t.responses ≠ [.okay]) = true) ∧
    (∃ t, exec .openB busClosed = .next t ∧ decide (t.responses = [.okay]) = true) ∧
    (∃ t, exec .closeP (par [bad]) = .next t ∧ decide (t.responses ≠ [.okay]) = true) ∧
    ∃ t, exec .closeB (bus 4 (failAt 20)) = .next t ∧
      decide (t.responses ≠ [.okay] ∧ t.cur.err = some false) = true :=
  ⟨exists_of_nextWith (by decide), exists_of_nextWith (by decide), exists_of_nextWith (by decide),
    exists_of_nextWith (by decide), exists_of_nextWith (by decide)⟩

theorem witness_ErrAfterTransmit :
    (∃ t, exec (.txP ((256 : Nat) : Int)) (par (List.replicate 16 (okay false))) = .next t ∧
      decide (t.responses = [.okay] ∧ t.cur.err = some false) = true) ∧
    (∃ t, exec (.txB ((16 : Nat) : Int))
        (one (busCfg 4 .corrected) .opened none (List.replicate 20 (okay false))) = .next t ∧
      decide (t.responses = [.okay] ∧ t.cur.err = some true) = true) ∧
    ∃ t, exec (.txB ((15 : Nat) : Int))
        (one (busCfg 4 .corrected) .opened none (List.replicate 20 (okay false))) = .next t ∧
      decide (t.responses = [.okay] ∧ t.cur.err = some false) = true :=
  ⟨exists_of_nextWith (by decide), exists_of_nextWith (by decide), exists_of_nextWith (by decide)⟩

theorem witness_EndsIdle : ∃ t, exec (.txP 5) (par (failAt 5)) = .next t ∧ decide (t.cur.idx = none) = true :=
  exists_of_nextWith (by decide)

theorem witness_SupportedCommandsEnd : State.reset.Supported Instr.openP.mode ∧ Instr.openP.kind = .opens ∧
    State.reset.cur.life = .closed ∧ (State.reset.setLife .opened).openDisjoint = true ∧
    (par []).Supported (Instr.txP 300).mode := by decide

theorem witness_UnsupportedIsRefused : ¬ ({ par [] with numbering := none } : State).Supported Instr.rxP.mode ∧
    ¬ inProgress.Supported Instr.rxP.mode ∧ ¬ (par []).Supported Instr.rxB.mode ∧
    ¬ (bus 0 []).Supported Instr.rxB.mode ∧
    ¬ sharingOpen.Supported Instr.rxP.mode := by decide

theorem witness_PinCallBound : ∃ t, exec (.txP 5) (par (List.replicate 16 (okay false))) = .next t ∧
    decide (t.calls = 16) = true := exists_of_nextWith (by decide)

theorem witness_StepRunsDecoded :
    (∃ b, ({ two with host := [.command 0 0b01#2 255] } : State).blocks[0]? = some b ∧ b.cfg.mode = .par) ∧
    ({ two with host := [.command 1 0b01#2 1] } : State).blocks[1]? = some two.cur ∧
    ({ two with host := [.read 1 .life] } : State).host = .read 1 .life :: [] ∧
    ({ two with host := [.command 2 0b01#2 1] } : State).blocks[2]? = none ∧
    ({ two with host := [.command 2 0b01#2 1] } : State).host = .command 2 0b01#2 1 :: [] :=
  ⟨⟨_, rfl, rfl⟩, by decide⟩

/-- P5: a command to place 0 is TX.P of the parallel instance, one to place 1 TX.B of the bus instance. -/
theorem test_ports :
    nextWith (fun t => decide (t.cur.cfg.mode = .par ∧ t.trace.getLast? = some (.fail (.cfg 7 .out))))
      (step { two with host := [.command 0 0b01#2 255], world := [bad] }) = true ∧
    nextWith (fun t => decide (t.cur.cfg.mode = .bus ∧ t.trace.getLast? = some (.fail (.cfg 17 .out))))
      (step { two with host := [.command 1 0b01#2 1], world := [bad] }) = true := by decide

theorem witness_IdleStep : State.reset.host = [] := rfl

theorem witness_ReadViews : (one Config.initial .opened (some false) []).cur.cfg.wf = true ∧
    (one Config.initial .opened (some false) []).openDisjoint = true ∧
    (one Config.initial .opened (some false) []).cur.busy = false ∧
    (one Config.initial .opened (some false) []).cur.err = some false ∧
    (par []).cur.cfg.wf = true ∧ (par []).openDisjoint = true ∧ (par []).cur.busy = false ∧ (par []).cur.err = none ∧
    inProgress.cur.cfg.wf = true ∧ inProgress.openDisjoint = true ∧ inProgress.cur.busy = true ∧
    (bus 0 []).cur.cfg.wf = false ∧ sharingOpen.cur.cfg.wf = true ∧ sharingOpen.openDisjoint = false ∧
    ({ two with host := [.read 1 .err] } : State).host = .read two.before.length .err :: [] := by decide

theorem witness_ConstructOnce :
    ({ State.reset with host := [.construct 7], numbering := none } : State).host = .construct 7 :: [] ∧
    ({ State.reset with host := [.construct 7], numbering := none } : State).numbering = none ∧
    ({ State.reset with host := [.construct 7] } : State).numbering ≠ none := by decide

/-- Another user configures pin 40 while the parallel instance, which owns pin 0, is open. -/
theorem witness_OtherUserFrame :
    ({ par [okay false] with host := [.otherUser (.cfg 40 .out)] } : State).host = .otherUser (.cfg 40 .out) :: [] ∧
    (∃ t, step { par [okay false] with host := [.otherUser (.cfg 40 .out)] } = .next t ∧
      decide (t.pins = [(40, ⟨.out, none⟩)]) = true) ∧
    Config.initial ∈ (par [okay false]).openConfigs ∧ 0 ∈ Config.initial.pins :=
  ⟨rfl, exists_of_nextWith (by decide), by decide, by decide⟩

theorem witness_ResetBetweenCommands :
    ((∀ b ∈ two.blocks, b.busy = false) ∧ (∀ b ∈ two.blocks, b.cfg.wf = true) ∧ two.openDisjoint = true) ∧
    (∃ b ∈ inProgress.blocks, b.busy = true) ∧
    ((∀ b ∈ (bus 0 []).blocks, b.busy = false) ∧ ∃ b ∈ (bus 0 []).blocks, b.cfg.wf = false) ∧
    ((∀ b ∈ sharingOpen.blocks, b.busy = false) ∧ (∀ b ∈ sharingOpen.blocks, b.cfg.wf = true) ∧
      sharingOpen.openDisjoint = false) ∧
    ({ two with host := [.reset] } : State).host = .reset :: [] := by decide

theorem inv_two (h : List HostAction) : ({ two with host := h } : State).Inv where
  pinsWf := (by decide : two.pins.wf = true)
  driven := by
    intro p
    show (two.pins.get p).drv ≠ none → (two.pins.get p).dir = .out
    simp only [two, List.range, List.range.loop, List.map, Pins.get]
    intro hp
    repeat' split at hp
    all_goals first | (simp_all; done) | exact absurd rfl hp
  idle := (by decide : ∀ b ∈ two.blocks, b.Idle)
  faithful := by
    have : ∀ b ∈ two.blocks, b.err ≠ some true := by decide
    exact fun b hb _ => this b hb
  disjoint := (by decide : two.openDisjoint = true)
  follow := (by decide : two.pins = Pins.replay two.reconfKeepsLevel [] two.trace)

theorem witness_StepKeepsInvariant : ({ two with host := [.command 1 0b11#2 0] } : State).Inv ∧
    ∃ t, step { two with host := [.command 1 0b11#2 0] } = .next t ∧ decide (t.cur.life = .closed) = true :=
  ⟨inv_two _, exists_of_nextWith (by decide)⟩

end Sys2Proof.Tests
end

section
/-! Scope of the model (00_scope.md): the well-formed configurations, the states in which a command has no meaning,
and what no command changes. -/

namespace Sys2Proof.Machine

/-! ### Well-formed configurations (R16) -/

/-- R16 (e) for each transport: the pins in use are those of the configuration's own mode. -/
theorem pins_nodup_iff (c : Config) : c.pins.Nodup ↔
    (c.mode = .par → (c.outPins ++ c.inPins).Nodup) ∧
      (c.mode = .bus → (c.inPins ++ [c.dataPin, c.clockPin]).Nodup) := by
  unfold Config.pins
  cases c.mode <;> simp

/-- R16 (a): a parallel block has width 8, a bus block any positive width. -/
theorem widthOk_iff (c : Config) : c.widthOk = true ↔ 1 ≤ c.w ∧ (c.mode = .par → c.w = 8) := by
  unfold Config.widthOk
  cases c.mode <;> simp

/-- R16, clause by clause: `wf_clauses` with its converse. -/
theorem wf_iff (c : Config) : c.wf = true ↔
    (1 ≤ c.w ∧ (c.mode = .par → c.w = 8)) ∧ c.nout = 8 ∧ 1 ≤ c.nin ∧ Config.minSettle ≤ c.tSettle ∧
      c.pins.Nodup := by
  simp only [Config.wf, Bool.and_eq_true, widthOk_iff, Config.noutOk, Config.ninOk, Config.settleOk,
    Config.pinsDistinct, decide_eq_true_eq, and_assoc]

/-! ### Commands that are refused -/

/-- Each reason `refusalOf` gives is true of the state. -/
theorem refusalOf_some_cases {m : Mode} {s : State} {r : Refusal} (h : refusalOf m s = some r) :
    r = .noPinInterface ∧ s.numbering = none ∨
      r = .commandWhileBusy ∧ (∃ b ∈ s.blocks, b.busy = true) ∨
      r = .wrongTransport ∧ s.cur.cfg.mode ≠ m ∨
      r = .illFormedConfig ∧ s.cur.cfg.wf = false ∨
      r = .sharedPins ∧ s.openDisjoint = false := by
  unfold refusalOf at h
  split at h
  next hn => exact .inl ⟨(Option.some.inj h).symm, hn⟩
  split at h
  next hb => exact .inr (.inl ⟨(Option.some.inj h).symm, List.any_eq_true.1 hb⟩)
  split at h
  next hm => exact .inr (.inr (.inl ⟨(Option.some.inj h).symm, hm⟩))
  split at h
  next hw => exact .inr (.inr (.inr (.inl ⟨(Option.some.inj h).symm, by simpa using hw⟩)))
  split at h
  next hd => exact .inr (.inr (.inr (.inr ⟨(Option.some.inj h).symm, by simpa using hd⟩)))
  cases h

/-- A command that is not admitted is refused for the reason `refusalOf` gives, whatever its body. -/
theorem exec_of_refusalOf {i : Instr} {s : State} {r : Refusal} (h : refusalOf i.mode s = some r) :
    exec i s = .refused r := by
  rw [exec_eq_run]
  unfold runCommand
  rw [h]

/-- Outside the supported states there is a reason, and the command is refused for it. -/
theorem exec_unsupported {i : Instr} {s : State} (h : ¬ s.Supported i.mode) :
    ∃ r, refusalOf i.mode s = some r ∧ exec i s = .refused r := by
  obtain ⟨r, hr⟩ := Option.ne_none_iff_exists'.1 (mt (refusalOf_eq_none_iff i.mode s).1 h)
  exact ⟨r, hr, exec_of_refusalOf hr⟩

/-! ### The frame of a command (R3, R34, R53, R133) -/

/-- What may have become of `s` during a command: the rest is the same, and the pins are the replay of the events
appended to the trace. The state of the addressed block, the responses and the number of calls are free. -/
def State.Framed (s t : State) : Prop :=
  s.SameRest t ∧ ∃ es, t.trace = s.trace ++ es ∧ t.pins = s.pins.replay s.reconfKeepsLevel es

theorem State.SameRest.trans {s t u : State} (h : s.SameRest t) (k : t.SameRest u) : s.SameRest u := by
  obtain ⟨hb, ha, hc, hn, hr, hw, hh, ho⟩ := h
  obtain ⟨kb, ka, kc, kn, kr, kw, kh, ko⟩ := k
  exact ⟨kb.trans hb, ka.trans ha, kc.trans hc, kn.trans hn, kr.trans hr, kw.trans hw, kh.trans hh, ko.trans ho⟩

/-- Work done in two parts appends the events of both (R53). -/
theorem State.Framed.trans {s t u : State} (h : s.Framed t) (k : t.Framed u) : s.Framed u := by
  obtain ⟨hs, es, htr, hp⟩ := h
  obtain ⟨ks, fs, ktr, kp⟩ := k
  have ⟨_, _, _, _, hkeeps, _⟩ := hs
  refine ⟨hs.trans ks, es ++ fs, ?_, ?_⟩
  · rw [ktr, htr, List.append_assoc]
  · rw [kp, hp, hkeeps, Pins.replay_append]

theorem framed_perform (s : State) (n : Nat) (es : List Event) : s.Framed (s.perform n es) :=
  ⟨⟨rfl, rfl, rfl, rfl, rfl, rfl, rfl, rfl⟩, es, rfl, rfl⟩

/-- Writing the state of the addressed block or answering the host is within the frame, as long as the
configuration stays (R3). -/
theorem framed_of_block (s : State) (b : Block) (hb : b.cfg = s.cur.cfg) (rs : List Response) :
    s.Framed { s with cur := b, responses := rs } :=
  ⟨⟨rfl, rfl, hb, rfl, rfl, rfl, rfl, rfl⟩, [], (List.append_nil _).symm, rfl⟩

/-- Everything a command writes is within the frame. -/
theorem framed_kept (s : State) : CommandKept s.Framed where
  perform t h n e _ := h.trans (framed_perform t n [e])
  setIdx t _ h := h.trans (framed_of_block t _ rfl _)
  setReg t _ h := h.trans (framed_of_block t _ rfl _)
  errUpdate t len cap h := by
    rw [errUpdate_eq]
    exact h.trans (framed_of_block t _ rfl _)
  setErrNone t h := h.trans (framed_of_block t _ rfl _)
  setLife t _ h := h.trans (framed_of_block t _ rfl _)
  setBusy t _ h := h.trans (framed_of_block t _ rfl _)
  pushResponse t _ h := h.trans (framed_of_block t _ rfl _)

/-! ### The obligations -/

/-- Settles O50: the reason comes from `refusalOf`, the only thing a command asks before it starts. -/
theorem unsupportedIsRefused : Obligations.UnsupportedIsRefused := by
  intro i s h
  obtain ⟨r, hr, hx⟩ := exec_unsupported h
  exact ⟨r, hx, refusalOf_some_cases hr⟩

/-- Settles O1: R16 clause by clause, and an ill-formed configuration makes the state unsupported. -/
theorem wellFormedConfigClauses : Obligations.WellFormedConfigClauses := by
  refine ⟨fun c => ?_, fun i s hw => ?_⟩
  · rw [wf_iff, pins_nodup_iff]
  · have hs : ¬ s.Supported i.mode := by
      rintro ⟨-, -, -, hwf, -⟩
      rw [hw] at hwf
      cases hwf
    obtain ⟨r, -, hx⟩ := exec_unsupported hs
    exact ⟨r, hx⟩

/-- Settles O42: the frame is kept by everything a command writes, and `s` is in its own frame. -/
theorem commandFrame : Obligations.CommandFrame := by
  intro i s t h
  exact (framed_kept s).exec i (framed_of_block s s.cur rfl s.responses) h

end Sys2Proof.Machine
end

section
/-! The state of the machine: what a command leaves of LIFE, ERR and the transient fields, what the views and a reset
answer, and the invariant, part by part (10_state.md). -/

namespace Sys2Proof.Machine

/-! ### What a command leaves of the addressed block (R24, R25, R39, R124) -/

/-- LIFE and ERR after a command that ended with a status: every way of `Ends`, without its events. -/
inductive LeavesLifeErr (s : State) (i : Instr) : Status → Life → Option Bit → Prop
  | opens (hk : i.kind = .opens) (hd : (s.setLife .opened).openDisjoint = true) : LeavesLifeErr s i .ok .opened none
  | closes (hk : i.kind = .closes) : LeavesLifeErr s i .ok .closed none
  | transmits (hk : i.kind = .transmits) (hl : s.cur.life = .opened) (len cap : Nat) :
      LeavesLifeErr s i .ok s.cur.life (some (errResult s.cur.cfg.errMode len cap))
  | samples (hk : i.kind = .samples) : LeavesLifeErr s i .ok s.cur.life s.cur.err
  | fault {x : Status} (hx : x ≠ .ok) : LeavesLifeErr s i x s.cur.life s.cur.err
  | failedRelease {x : Status} (hi : i = .closeB) (hl : s.cur.life = .opened) (hx : x ≠ .ok) :
      LeavesLifeErr s i x s.cur.life (some false)

/-- Every command that ends gives one response, keeps the configuration, leaves the block idle, and LIFE and ERR in
one of the ways of `LeavesLifeErr`. -/
theorem exec_leaves {i : Instr} {s t : State} (h : exec i s = .next t) :
    ∃ r l e, t.responses = s.responses ++ [r] ∧ t.cur = ⟨s.cur.cfg, l, e, none, none, false⟩ ∧
      LeavesLifeErr s i r.status l e := by
  obtain ⟨-, he⟩ := exec_cases h
  cases he with
  | opened hk hl hd => exact ⟨_, _, _, rfl, rfl, .opens hk hd⟩
  | txPDone v hl h => exact ⟨_, _, _, rfl, rfl, .transmits rfl hl _ _⟩
  | txBDone v hl h => exact ⟨_, _, _, rfl, rfl, .transmits rfl hl _ _⟩
  | rxDone hk hl h => exact ⟨_, _, _, rfl, rfl, .samples hk⟩
  | closePDone hl h => exact ⟨_, _, _, rfl, rfl, .closes rfl⟩
  | closeBDone hl h => exact ⟨_, _, _, rfl, rfl, .closes rfl⟩
  | closeBRelease hl h => exact ⟨_, _, _, rfl, rfl, .failedRelease rfl hl nofun⟩
  | lifecycle | invalid | txPFail | txBFail | rxFail | closePFail | closeBFail =>
    exact ⟨_, _, _, rfl, rfl, .fault nofun⟩

section Leaves
variable {s : State} {i : Instr} {x : Status} {l : Life} {e : Option Bit}

/-- A block without ERR while closed stays so (R39). -/
theorem LeavesLifeErr.err_of_closed (h : LeavesLifeErr s i x l e) (hs : s.cur.life = .closed → s.cur.err = none)
    (hl : l = .closed) : e = none := by
  cases h with
  | opens => cases hl
  | closes => rfl
  | samples | fault => exact hs hl
  | transmits _ ho | failedRelease _ ho =>
    rw [ho] at hl
    cases hl

/-- In FAITHFUL mode no command leaves ERR 1 (R145). -/
theorem LeavesLifeErr.faithful (h : LeavesLifeErr s i x l e) (hm : s.cur.cfg.errMode = .faithful)
    (hs : s.cur.err ≠ some true) : e ≠ some true := by
  cases h with
  | samples | fault => exact hs
  | transmits => simp [hm, errResult]
  | opens | closes | failedRelease => simp

end Leaves

/-- A command keeps the open instances disjoint: only OPEN adds one, and it asks (R58). -/
theorem exec_openDisjoint {i : Instr} {s t : State} (h : exec i s = .next t) : t.openDisjoint = true := by
  obtain ⟨⟨-, -, -, -, hd⟩, -⟩ := exec_cases h
  obtain ⟨⟨hb, ha, hcfg, -⟩, -⟩ := commandFrame i s t h
  obtain ⟨⟨x, res⟩, l, e, -, hc, hl⟩ := exec_leaves h
  have hlife : t.cur.life = l := by rw [hc]
  cases hl with
  | opens _ ho => rwa [State.openDisjoint_congr (s := s.setLife .opened) hb ha hcfg hlife]
  | closes => exact State.openDisjoint_of_closed hb ha hlife hd
  | transmits | samples | fault | failedRelease => rwa [State.openDisjoint_congr hb ha hcfg hlife]

/-! ### The pin part of the invariant (R31, R32, R34) -/

/-- Pins with levels only on outputs that are what a trace has done since reset. -/
structure PinsInv (keeps : Bool) (ps : Pins) (tr : List Event) : Prop where
  driven : ∀ p, (ps.get p).drv ≠ none → (ps.get p).dir = .out
  follow : ps = Pins.replay keeps [] tr

theorem PinsInv.released (keeps : Bool) : PinsInv keeps [] [] := ⟨fun _ h => absurd rfl h, rfl⟩

/-- What a trace leads to is canonical. -/
theorem PinsInv.pinsWf {keeps : Bool} {ps : Pins} {tr : List Event} (h : PinsInv keeps ps tr) : ps.wf = true := by
  rw [h.follow]
  exact Pins.wf_replay rfl keeps tr

/-- An event that writes to outputs only leaves levels on outputs only: configuring a pin as input loses its level. -/
theorem Pins.driven_apply {ps : Pins} (h : ∀ p, (ps.get p).drv ≠ none → (ps.get p).dir = .out) (keeps : Bool)
    {e : Event} (hw : ∀ p b, e = .wr p b → (ps.get p).dir = .out) (q : PinId)
    (hq : ((ps.apply keeps e).get q).drv ≠ none) : ((ps.apply keeps e).get q).dir = .out := by
  cases e with
  | cfg p d =>
    simp only [Pins.apply] at hq ⊢
    by_cases hqp : q = p
    · subst hqp
      rw [Pins.get_configure_self] at hq ⊢
      split at hq
      · next hd =>
        obtain ⟨hdir, -⟩ := Bool.and_eq_true_iff.1 hd
        exact (of_decide_eq_true hdir).symm.trans (h q hq)
      · exact absurd rfl hq
    · rw [Pins.get_configure_ne hqp] at hq ⊢
      exact h q hq
  | wr p b =>
    simp only [Pins.apply] at hq ⊢
    by_cases hqp : q = p
    · subst hqp
      rw [Pins.get_drive_self]
      exact hw q b rfl
    · rw [Pins.get_drive_ne hqp] at hq ⊢
      exact h q hq
  | rstAll => exact absurd rfl hq
  | rd | dl | fail => exact h q hq

theorem PinsInv.append {keeps : Bool} {ps : Pins} {tr : List Event} (h : PinsInv keeps ps tr) {e : Event}
    (hw : ∀ p b, e = .wr p b → (ps.get p).dir = .out) : PinsInv keeps (ps.replay keeps [e]) (tr ++ [e]) where
  driven := Pins.driven_apply h.driven keeps hw
  follow := by rw [Pins.replay_append, ← h.follow]

/-- The pin part of the invariant of a state. -/
def State.PinsInv (s : State) : Prop := Machine.PinsInv s.reconfKeepsLevel s.pins s.trace

/-- Everything a command writes keeps the pin part: its pin calls append an event each, the rest is no pin state. -/
theorem pinsInv_kept : CommandKept State.PinsInv where
  perform _ h _ _ hw := PinsInv.append h hw
  setIdx _ _ h := h
  setReg _ _ h := h
  errUpdate s len cap h := by
    rw [errUpdate_eq]
    exact h
  setErrNone _ h := h
  setLife _ _ h := h
  setBusy _ _ h := h
  pushResponse _ _ h := h

/-! ### The invariant, action by action (R39, R58, R145) -/

theorem State.Inv.pins {s : State} (h : s.Inv) : s.PinsInv := ⟨h.driven, h.follow⟩

/-- What leaves all instances as they were keeps the invariant with its pin part. -/
theorem State.Inv.of_blocks {s t : State} (h : s.Inv) (hb : t.blocks = s.blocks) (hp : t.PinsInv) : t.Inv where
  pinsWf := PinsInv.pinsWf hp
  driven := PinsInv.driven hp
  idle := by rw [hb]; exact h.idle
  faithful := by rw [hb]; exact h.faithful
  disjoint := by
    unfold State.openDisjoint State.openConfigs
    rw [hb]
    exact h.disjoint
  follow := PinsInv.follow hp

/-- Consuming an action and addressing a block keep the invariant (R133). -/
theorem State.Inv.select {s u : State} {rest : List HostAction} {port : Nat} (h : s.Inv)
    (hu : (s.setHost rest).select port = some u) : u.Inv := by
  obtain ⟨hb, -, -, hp, htr, -, hk, -⟩ := State.select_spec hu
  refine h.of_blocks hb ?_
  unfold State.PinsInv
  rw [hp, htr, hk]
  exact h.pins

/-- With the other blocks as they were, what held of all blocks need only be shown of the addressed one. -/
theorem forall_blocks_of_cur {Q : Block → Prop} {s t : State} (hb : t.before = s.before) (ha : t.after = s.after)
    (hs : ∀ b ∈ s.blocks, Q b) (ht : Q t.cur) : ∀ b ∈ t.blocks, Q b := by
  simp only [State.blocks, List.forall_mem_append, List.forall_mem_cons, hb, ha] at hs ⊢
  obtain ⟨hbefore, -, hafter⟩ := hs
  exact ⟨hbefore, ht, hafter⟩

theorem State.cur_mem_blocks (s : State) : s.cur ∈ s.blocks := by simp [State.blocks]

/-- A command keeps the invariant. -/
theorem exec_keeps_inv {i : Instr} {s t : State} (hs : s.Inv) (h : exec i s = .next t) : t.Inv := by
  have hp : t.PinsInv := pinsInv_kept.exec i hs.pins h
  obtain ⟨⟨hb, ha, -⟩, -⟩ := commandFrame i s t h
  obtain ⟨r, l, e, -, hc, hl⟩ := exec_leaves h
  obtain ⟨-, -, -, herr⟩ := hs.idle _ s.cur_mem_blocks
  refine ⟨PinsInv.pinsWf hp, PinsInv.driven hp, ?_, ?_, exec_openDisjoint h, PinsInv.follow hp⟩
  · refine forall_blocks_of_cur hb ha hs.idle ?_
    rw [hc]
    exact ⟨rfl, rfl, rfl, hl.err_of_closed herr⟩
  · refine forall_blocks_of_cur hb ha hs.faithful ?_
    rw [hc]
    exact fun hm => hl.faithful hm (hs.faithful _ s.cur_mem_blocks hm)

/-- A reset leaves every block as after reset with its own configuration (R40). -/
@[simp] theorem State.resetAll_blocks (s : State) :
    s.resetAll.blocks = s.blocks.map fun b => Block.initial b.cfg := by
  simp [State.blocks, State.resetAll]

/-- A reset establishes the invariant, whatever the state was (R39, R40). -/
theorem State.resetAll_inv (s : State) : s.resetAll.Inv := by
  have hall : ∀ b ∈ s.resetAll.blocks, ∃ c, b = Block.initial c := by
    intro b hb
    rw [State.resetAll_blocks] at hb
    obtain ⟨b', -, rfl⟩ := List.mem_map.1 hb
    exact ⟨_, rfl⟩
  have hopen : s.resetAll.openConfigs = [] := by
    simp [State.openConfigs, Block.initial]
  have hp := PinsInv.released s.reconfKeepsLevel
  refine ⟨hp.pinsWf, hp.driven, fun b hb => ?_, fun b hb => ?_, ?_, hp.follow⟩
  · obtain ⟨c, rfl⟩ := hall b hb
    exact ⟨rfl, rfl, rfl, fun _ => rfl⟩
  · obtain ⟨c, rfl⟩ := hall b hb
    exact fun _ => nofun
  · rw [State.openDisjoint, hopen]
    rfl

/-! ### Where a reset is refused (R16, R40, R58, U9) -/

theorem allWf_eq_true_iff (s : State) : s.allWf = true ↔ ∀ b ∈ s.blocks, b.cfg.wf = true := List.all_eq_true

section Reset
variable {s : State}

theorem resetSystem_busy (hb : ∃ b ∈ s.blocks, b.busy = true) : resetSystem s = .refused .resetWhileBusy := by
  have : s.anyBusy = true := List.any_eq_true.2 hb
  simp [resetSystem, this]

theorem resetSystem_illFormed (hb : ∀ b ∈ s.blocks, b.busy = false) (hw : ∃ b ∈ s.blocks, b.cfg.wf = false) :
    resetSystem s = .refused .illFormedConfig := by
  have : s.allWf = false := by simpa [State.allWf] using hw
  simp [resetSystem, (anyBusy_eq_false_iff s).2 hb, this]

/-- Between commands, with well-formed instances, a reset is carried out exactly where the open ones are disjoint. -/
theorem resetSystem_idle (hb : ∀ b ∈ s.blocks, b.busy = false) (hw : ∀ b ∈ s.blocks, b.cfg.wf = true) :
    resetSystem s = if s.openDisjoint then .next s.resetAll else .refused .sharedPins := by
  cases hd : s.openDisjoint <;>
    simp [resetSystem, (anyBusy_eq_false_iff s).2 hb, (allWf_eq_true_iff s).2 hw, hd]

end Reset

/-! ### The obligations -/

/-- Settles O60, action by action: every action but a command and a reset leaves the instances as they were. -/
theorem stepKeepsInvariant : Obligations.StepKeepsInvariant := by
  intro s t hs h
  rcases step_cases h with ⟨-, rfl⟩ | ⟨_, _, _, _, u, -, hu, hx⟩ | ⟨_, _, _, u, -, hu, hr⟩ | ⟨_, _, -, -, rfl⟩ |
    ⟨_, rest, -, ho⟩ | ⟨_, -, -, rfl⟩
  · exact hs
  · exact exec_keeps_inv (hs.select hu) hx
  · obtain ⟨r, rfl⟩ := readView_cases hr
    exact (hs.select hu).of_blocks rfl (hs.select hu).pins
  · exact hs.of_blocks rfl hs.pins
  · obtain ⟨-, e, rfl, -, hw⟩ := otherUser_cases ho
    exact hs.of_blocks rfl (PinsInv.append hs.pins hw)
  · exact State.resetAll_inv _

/-- Settles O44, by the ways a command leaves LIFE. -/
theorem lifeFrame : Obligations.LifeFrame := by
  intro i s t h
  obtain ⟨⟨x, res⟩, l, e, hr, hc, hl⟩ := exec_leaves h
  refine ⟨_, hr, ?_⟩
  rw [hc]
  cases hl with
  | opens hk | closes hk | transmits hk | samples hk => simp [hk]
  | fault hx => simp [hx]
  | failedRelease hi _ hx => simp [hx]

/-- Settles O45, by the ways a command leaves ERR. -/
theorem errFrame : Obligations.ErrFrame := by
  intro i s t h
  obtain ⟨⟨x, res⟩, l, e, hr, hc, hl⟩ := exec_leaves h
  refine ⟨_, hr, ?_⟩
  rw [hc]
  cases hl with
  | opens hk | closes hk | transmits hk | samples hk => simp [hk]
  | fault hx => simp [hx]
  | failedRelease hi _ hx =>
    subst hi
    simp [hx, Instr.kind]

/-- Settles O47: `finish` ends every command. -/
theorem endsIdle : Obligations.EndsIdle := by
  intro i s t h
  obtain ⟨_, _, _, -, hc, -⟩ := exec_leaves h
  rw [hc]
  exact ⟨rfl, rfl, rfl⟩

/-- Settles O58: the step is `resetSystem` once the action is consumed. -/
theorem resetBetweenCommands : Obligations.ResetBetweenCommands := by
  intro s rest hh
  rw [step_reset hh]
  refine ⟨fun hb hw hd => ?_, resetSystem_busy (s := s.setHost rest), resetSystem_illFormed (s := s.setHost rest),
    fun hb hw hd => ?_⟩
  · refine ⟨(s.setHost rest).resetAll, ?_, State.resetAll_blocks _, List.length_map .., fun _ => rfl, rfl, rfl, rfl, rfl,
      rfl, rfl, rfl, rfl⟩
    rw [resetSystem_idle (s := s.setHost rest) hb hw, State.setHost_openDisjoint, hd, if_pos rfl]
  · rw [resetSystem_idle (s := s.setHost rest) hb hw, State.setHost_openDisjoint, hd, if_neg nofun]

/-- Settles O10: `ErrUpdate` is one write of `errResult`. -/
theorem errUpdateLeaves : Obligations.ErrUpdateLeaves := by
  intro len cap s
  rw [errUpdate_eq]
  exact ⟨fun hm => by rw [hm]; rfl, fun hm => by rw [hm]; rfl⟩

/-- Settles O54: in a supported system a read is of the field; each refusal is a guard of `readView`. -/
theorem readViews : Obligations.ReadViews := by
  refine ⟨fun s hw hd => ?_, fun s x hw => ?_, fun s x hw hd => ?_, fun s x rest hh => ?_⟩
  · simp only [readView_supported hw hd]
    refine ⟨rfl, rfl, rfl, rfl, rfl, rfl, rfl, rfl, rfl, rfl, rfl, rfl, fun hb b he => ?_, fun hb he => ?_,
      fun hb => ?_⟩
    · simp [viewField, hb, he]
    · simp [viewField, hb, he]
    · simp [viewField, hb]
  · simp [readView, hw]
  · simp [readView, hw, hd]
  · exact step_read hh (State.select_self (s.setHost rest))

/-- Settles O57: the values of `State.reset` field by field; an empty pin list reads as released everywhere. -/
theorem resetValues : Obligations.ResetValues := ⟨rfl, rfl, rfl, rfl, rfl, fun _ => rfl, rfl⟩

/-- Settles O59: the state after reset is one a reset leaves. -/
theorem resetHasInvariant : Obligations.ResetHasInvariant := State.resetAll_inv State.reset

end Sys2Proof.Machine
end

section
/-! The PinInterface (20_memory.md): the effect of each call and of its failure, what a call leaves alone, and what a
command or another user of the interface can do to the pins. -/

namespace Sys2Proof.Machine

/-! ### The state after a call (R47, R53) -/

/-- A failed call leaves only its event and its count (R47, D20). -/
theorem perform_fail (s : State) (c : PinCall) : s.perform 1 [.fail c] = s.afterFail c := rfl

theorem sameRest_perform (s : State) (n : Nat) (es : List Event) : s.SameRest (s.perform n es) :=
  (framed_perform s n es).1

/-! ### Pins that events leave alone (R41, R42, R43, R45) -/

/-- No event of the list is a carried-out call on the pin or a release of all pins. -/
def Spares (q : PinId) (es : List Event) : Prop := .rstAll ∉ es ∧ ∀ e ∈ es, e.pin ≠ some q

section Spares
variable {q : PinId} {es : List Event}

/-- A spared pin keeps direction and level. -/
theorem Spares.get_replay (h : Spares q es) (keeps : Bool) (ps : Pins) :
    (ps.replay keeps es).get q = ps.get q := Pins.replay_ne h.1 h.2 keeps ps

/-- A list cut at a failing call spares what the whole list spares (R117). -/
theorem Spares.cut {n : Nat} {fs : List Event} {c : PinCall} (h : Spares q es)
    (hc : cutAtCall n es = some (fs, c)) : Spares q fs := cutAtCall_ne hc h.1 h.2

theorem Spares.append {fs : List Event} (h : Spares q es) (k : Spares q fs) : Spares q (es ++ fs) := by
  obtain ⟨hr, hp⟩ := h
  obtain ⟨kr, kp⟩ := k
  exact ⟨by simp [hr, kr], List.forall_mem_append.2 ⟨hp, kp⟩⟩

/-- A failed call spares every pin (R47). -/
theorem spares_fail (q : PinId) (c : PinCall) : Spares q [.fail c] := by simp [Spares, Event.pin]

/-- Turns of events on one pin each spare every other pin. -/
theorem spares_flatMap {α : Type} {f : α → List Event} {pin : α → PinId}
    (hf : ∀ a, ∀ e ∈ f a, e.pin = some (pin a))
    {as : List α} (hq : q ∉ as.map pin) : Spares q (as.flatMap f) := by
  refine ⟨fun hr => ?_, mem_flatMap_pin hf hq⟩
  obtain ⟨a, -, ha⟩ := List.mem_flatMap.1 hr
  cases hf a _ ha

variable {c : Config}

/-- TX.P spares all but the output bank (R90). -/
theorem txPEvents_spares (hq : q ∉ c.outPins) (v : Nat) : Spares q (txPEvents c v) :=
  spares_flatMap (pinWriteEvents_pin _) (by simpa [List.zipIdx_map_fst] using hq)

/-- A sample spares all but the input bank (R92). -/
theorem sampleEvents_spares (hq : q ∉ c.inPins) (levels : BitReg) : Spares q (sampleEvents c levels) := by
  refine spares_flatMap pinReadEvents_pin fun hm => hq ?_
  obtain ⟨⟨p, b⟩, hpb, rfl⟩ := List.mem_map.1 hm
  exact (List.of_mem_zip hpb).1

/-- A bus transmit spares all but the data and the clock pin (R96). -/
theorem busEvents_spares (hq : q ∉ [c.dataPin, c.clockPin]) (v : Nat) : Spares q (busEvents c v) := by
  obtain ⟨hd, hc⟩ : q ≠ c.dataPin ∧ q ≠ c.clockPin := by simpa using hq
  exact bitCycles_pin _ hd hc

end Spares

/-- Both samples touch the input bank (R91, R102). -/
theorem touches_of_samples {i : Instr} (hk : i.kind = .samples) (c : Config) : i.touches c = c.inPins := by
  cases i with
  | rxP | rxB => rfl
  | openP | txP | closeP | openB | txB | closeB => cases hk

/-- However a command ends, but by a completed release, the pins it does not touch are as before. -/
theorem Ends.get_of_not_touched {i : Instr} {s t : State} (h : Ends s i t)
    (hrel : ¬ (i.kind = .closes ∧ s.cur.life = .opened ∧ t.cur.life = .closed)) {q : PinId}
    (hq : q ∉ i.touches s.cur.cfg) : t.pins.get q = s.pins.get q := by
  cases h with
  | lifecycle | opened | invalid | closePFail => rfl
  | txPDone v => exact (txPEvents_spares hq v).get_replay _ _
  | txPFail v _ _ _ hc => exact ((txPEvents_spares hq v).cut hc).get_replay _ _
  | txBDone v => exact (busEvents_spares hq v).get_replay _ _
  | txBFail v _ _ _ hc => exact ((busEvents_spares hq v).cut hc).get_replay _ _
  | rxDone hk =>
    rw [touches_of_samples hk] at hq
    exact (sampleEvents_spares hq _).get_replay _ _
  | rxFail hk _ _ _ hc =>
    rw [touches_of_samples hk] at hq
    exact ((sampleEvents_spares hq _).cut hc).get_replay _ _
  | closeBFail _ _ _ hc => exact ((busEvents_spares hq 0).cut hc).get_replay _ _
  | closeBRelease => exact ((busEvents_spares hq 0).append (spares_fail q _)).get_replay _ _
  | closePDone hl | closeBDone hl => exact absurd ⟨rfl, hl, rfl⟩ hrel

/-! ### Another user of the PinInterface (R58) -/

/-- The event of a call, carried out or failed, spares every pin the call does not name, unless it releases all. -/
theorem spares_of_not_named {c : PinCall} {e : Event} {q : PinId} (he : e.call = some c ∨ e = .fail c)
    (hc : c ≠ .resetAll) (hq : q ∉ c.named) : Spares q [e] := by
  rcases he with he | rfl
  swap
  · exact spares_fail q c
  cases e with
  | cfg p | wr p | rd p =>
    obtain rfl := Option.some.inj he
    have hqp : q ≠ p := by simpa [PinCall.named] using hq
    simp [Spares, Event.pin, hqp.symm]
  | rstAll => exact absurd (Option.some.inj he).symm hc
  | dl | fail => cases he

/-- A call that names no pin of an open block names none of its pins (U4). -/
theorem not_named_of_open {s : State} {c : PinCall} (h : s.ownsPinOf c = false) {d : Config} (hd : d ∈ s.openConfigs)
    {q : PinId} (hq : q ∈ d.pins) : q ∉ c.named := by
  intro hn
  have : s.ownsPinOf c = true :=
    List.any_eq_true.2 ⟨d, hd, List.any_eq_true.2 ⟨q, hn, List.contains_iff_mem.2 hq⟩⟩
  rw [h] at this
  cases this

/-! ### What refuses a command (R58, R60, R119) -/

/-- An OPEN that would make open blocks share a pin (R58, log 8). -/
theorem openInstance_shared {s : State} (h : (s.setLife .opened).openDisjoint = false) :
    openInstance s = .refused .sharedPins := by
  have hd : ((s.setErr none).setLife .opened).openDisjoint = false := h ▸ State.openDisjoint_congr rfl rfl rfl rfl
  rw [openInstance, hd]
  rfl

/-- The body of either OPEN decides whether a ready closed block opens. -/
theorem exec_open_shared {i : Instr} {s : State} (hb : bodyOf i = openInstance) (hl : i.legalLife = .closed)
    (hs : s.Ready i.mode .closed) (h : (s.setLife .opened).openDisjoint = false) :
    exec i s = .refused .sharedPins := by
  obtain ⟨hsup, -, hlife⟩ := hs
  have hd : ((s.setBusy true).setLife .opened).openDisjoint = false := h ▸ State.openDisjoint_congr rfl rfl rfl rfl
  rw [exec_legal hsup (hlife.trans hl.symm), hb, openInstance_shared hd]
  rfl

/-- The only reasons a command is refused for: those of admission, and that of OPEN. -/
theorem exec_refused_mem {i : Instr} {s : State} {r : Refusal} (h : exec i s = .refused r) :
    r ∈ [Refusal.noPinInterface, .commandWhileBusy, .wrongTransport, .illFormedConfig, .sharedPins] := by
  by_cases hs : s.Supported i.mode
  · rcases exec_supported i hs with ⟨t, ht, -⟩ | ⟨-, -, -, hx⟩
    · rw [h] at ht
      cases ht
    · rw [h] at hx
      simp [Host.Outcome.refused.inj hx]
  · obtain ⟨q, hx, hq⟩ := unsupportedIsRefused i s hs
    rw [h] at hx
    obtain rfl := Host.Outcome.refused.inj hx
    rcases hq with ⟨rfl, -⟩ | ⟨rfl, -⟩ | ⟨rfl, -⟩ | ⟨rfl, -⟩ | ⟨rfl, -⟩ <;> simp

/-! ### The obligations -/

/-- Settles O43, by the ways a command ends. -/
theorem pinFrame : Obligations.PinFrame := by
  intro i s t h hrel q hq
  exact (exec_cases h).2.get_of_not_touched hrel hq

/-- Settles O48: the three are not among the reasons a command is refused for, and no command ends in a fault. -/
theorem noDirectionViolation : Obligations.NoDirectionViolation := by
  intro i s
  refine ⟨fun p h => ?_, fun p h => ?_, fun h => ?_, fun f h => ?_⟩
  · simpa using exec_refused_mem h
  · simpa using exec_refused_mem h
  · simpa using exec_refused_mem h
  · rw [exec_eq_run] at h
    exact runCommand_ne_fault h

/-- Settles O56: the call is one event, and it names no pin of an open block. -/
theorem otherUserFrame : Obligations.OtherUserFrame := by
  intro s t c rest hh h
  rw [step_otherUser hh] at h
  obtain ⟨hown, e, rfl, he, -⟩ := otherUser_cases h
  refine ⟨rfl, rfl, rfl, ⟨e, he, rfl, rfl⟩, fun hc d hd q hq => ?_⟩
  exact (spares_of_not_named he hc (not_named_of_open hown hd hq)).get_replay _ _

/-- Settles O18: both OPENs have the body `openInstance`, which asks for the opened state's disjointness. -/
theorem openRefusesSharedPins : Obligations.OpenRefusesSharedPins := by
  intro s h
  exact ⟨fun hs => exec_open_shared (i := .openP) rfl rfl hs h, fun hs => exec_open_shared (i := .openB) rfl rfl hs h⟩

/-- Settles O11, by what a configure leaves of its own pin and of another. -/
theorem pinCfgEffect : Obligations.PinCfgEffect := by
  intro s p d h
  refine ⟨_, pinCfg_done h p d, ?_⟩
  have hget : ((s.perform 1 [.cfg p d]).pins.get p) =
      ⟨d.dir, if (s.pins.get p).dir = d.dir && s.reconfKeepsLevel then (s.pins.get p).drv else none⟩ :=
    Pins.get_configure_self ..
  rw [hget]
  refine ⟨rfl, fun hd => ?_, fun hd hk => ?_, fun hd hk => ?_, fun q hq => Pins.get_configure_ne hq .., rfl, rfl,
    sameRest_perform .., rfl, rfl⟩
  · simp [hd]
  · simp [hd, hk]
  · simp [hk]

/-- Settles O14: a release leaves the empty pin list, whatever was listed. -/
theorem pinResetAllEffect : Obligations.PinResetAllEffect := by
  intro s h
  have hagain : (s.perform 1 [.rstAll]).NoFail 1 := h.drop [.rstAll]
  exact ⟨_, _, pinResetAll_done (h.head (by decide)), pinResetAll_done (hagain.head (by decide)), fun _ => rfl, rfl, rfl,
    rfl, rfl, sameRest_perform .., rfl⟩

/-- Settles O12: on an output `PinWr` completes, and elsewhere its `require` refuses it. -/
theorem pinWrEffect : Obligations.PinWrEffect := by
  intro s p b
  refine ⟨fun hd h => ⟨_, pinWr_done h hd b, ?_, fun q hq => Pins.get_drive_ne hq .., rfl, rfl, sameRest_perform ..,
    rfl, rfl⟩, fun hd => if_neg hd⟩
  have hget : (s.perform 1 [.wr p b]).pins.get p = ⟨(s.pins.get p).dir, some b⟩ := Pins.get_drive_self ..
  rw [hget, hd]

/-- Settles O13: on an input `PinRd` completes, and elsewhere its `require` refuses it. -/
theorem pinRdEffect : Obligations.PinRdEffect := by
  intro s p
  exact ⟨fun hd h => ⟨_, pinRd_done h hd, rfl, rfl, rfl, sameRest_perform .., rfl, rfl⟩, fun hd => if_neg hd⟩

/-- Settles O15: a delay is one event and no pin call. -/
theorem delayEffect : Obligations.DelayEffect := by
  intro s t
  exact ⟨_, delay_eq t s, rfl, rfl, rfl, sameRest_perform .., rfl, rfl⟩

/-- Settles O16, by the failing case of each call. -/
theorem failedPinCall : Obligations.FailedPinCall := by
  intro s p d b h
  simp only [← perform_fail]
  exact ⟨pinCfg_failed h p d, fun hd => pinWr_failed h hd b, fun hd => pinRd_failed h hd, pinResetAll_failed h⟩

end Sys2Proof.Machine
end

section
/-! The command port (30_encoding.md): the decoder and the encoder undo each other, what a command presented at the
port answers, and the instance a step of the host runs it at. -/

namespace Sys2Proof

/-! ### Decoding what was encoded (R61 to R64) -/

/-- With a command's own mode the decoder undoes the encoder (R62, R63). -/
theorem decode_encodeCmd (i : Instr) : decode i.mode (encodeCmd i) (encodeValue i) = i := by
  cases i with
  | openP | rxP | closeP | openB | rxB | closeB => rfl
  | txP v | txB v =>
    simp [decode, decodeKeyOf, decodeKey, encodeCmd, encodeValue, Instr.mode, Instr.operand, Mode.bit]

/-- What a well-formed command presents, the value 0 of format N included, is within the port (R61, R64). -/
theorem presentable_encodeValue {c : Config} {i : Instr} (h : i.wf c = true) :
    c.presentable (encodeValue i) = true := by
  obtain ⟨-, ho⟩ := Bool.and_eq_true_iff.1 h
  rw [encodeValue]
  cases hi : i.operand with
  | none => simp [Config.presentable]
  | some v => rwa [hi] at ho

/-- A value within a two's-complement port is read back from it (R64). -/
theorem toInt_ofInt_of_presentable {c : Config} {v : Int} {n : Nat} (hv : c.presentable v = true)
    (hn : c.vw = some n) : (BitVec.ofInt n v).toInt = v := by
  obtain ⟨hlo, hhi⟩ : -(2 ^ n : Int) ≤ 2 * v ∧ 2 * v < 2 ^ n := by simpa [Config.presentable, hn] using hv
  rw [BitVec.toInt_ofInt]
  exact Int.bmod_eq_of_le_mul_two (by push_cast; omega) (by push_cast; omega)

/-- Settles O4: the unbounded port loses nothing, and a finite one nothing that is presentable. -/
theorem decodeOfEncode : Obligations.DecodeOfEncode := by
  intro c i h
  obtain ⟨hm, -⟩ := Bool.and_eq_true_iff.1 h
  rw [← of_decide_eq_true hm]
  refine ⟨decode_encodeCmd i, fun n hn => ?_⟩
  rw [decodePort, encodePort, toInt_ofInt_of_presentable (presentable_encodeValue h) hn]
  exact decode_encodeCmd i

/-! ### The opcode map (R62, R63) -/

/-- The four command codes (R63): OPEN, TX, RX, CLOSE. -/
theorem cmdCode_cases (cmd : CmdCode) : cmd = 0b00#2 ∨ cmd = 0b01#2 ∨ cmd = 0b10#2 ∨ cmd = 0b11#2 := by
  revert cmd
  decide

/-- Settles O3, code by code: of the four operations only TX has an operand, the presented value. -/
theorem decodeKeepsModeAndCode : Obligations.DecodeKeepsModeAndCode := by
  intro m cmd v
  rcases cmdCode_cases cmd with rfl | rfl | rfl | rfl
  · cases m <;> exact ⟨rfl, rfl, nofun⟩
  · cases m <;> exact ⟨rfl, rfl, fun _ hx => (Option.some.inj hx).symm⟩
  · cases m <;> exact ⟨rfl, rfl, nofun⟩
  · cases m <;> exact ⟨rfl, rfl, nofun⟩

/-- Settles O2: the rows of the table. -/
theorem opcodeMapKeys : Obligations.OpcodeMapKeys :=
  fun _ => ⟨rfl, rfl, rfl, rfl, rfl, rfl, rfl, rfl⟩

end Sys2Proof

namespace Sys2Proof.Machine

/-! ### The response to a command (R30, R66, R73) -/

/-- However a command ends, it gives one response, with a result exactly where it is a sample that ended OK. -/
theorem Ends.response {i : Instr} {s t : State} (h : Ends s i t) :
    ∃ r, t.responses = s.responses ++ [r] ∧ (r.result ≠ none ↔ i.kind = .samples ∧ r.status = .ok) := by
  cases h with
  | rxDone hk => exact ⟨_, rfl, by simp [hk]⟩
  | opened hk => exact ⟨_, rfl, by simp [hk, Response.okay]⟩
  | txPDone | txBDone | closePDone | closeBDone => exact ⟨_, rfl, by simp [Instr.kind, Response.okay]⟩
  | lifecycle | invalid | txPFail | txBFail | rxFail | closePFail | closeBFail | closeBRelease =>
    exact ⟨_, rfl, by simp⟩

/-- Settles O38: the body of the command is not begun, and on an idle block its start and end cancel. -/
theorem lifecycleViolationOnly : Obligations.LifecycleViolationOnly := by
  intro i s hs hidle hlife
  rw [exec_eq_run, runCommand_supported hs, if_neg hlife, raiseStatus, finish_busy hidle]

/-- Settles O41, by the ways a command ends. -/
theorem oneResponse : Obligations.OneResponse := by
  intro i s t h
  exact (exec_cases h).2.response

/-- Settles O49: a supported state refuses nothing but an OPEN that would share pins. -/
theorem supportedCommandsEnd : Obligations.SupportedCommandsEnd := by
  intro i s hs hopen
  rcases exec_supported i hs with ⟨t, ht, -⟩ | ⟨hk, hl, hd, -⟩
  · exact ⟨t, ht⟩
  · rw [hopen hk hl] at hd
    cases hd

/-! ### The step of a command and of a read (R61, R133) -/

/-- Settles O52: consuming the action leaves the instances, and addressing one rearranges nothing. -/
theorem stepRunsDecoded : Obligations.StepRunsDecoded := by
  intro s port cmd v view rest
  refine ⟨fun b hb => ?_, fun hn hh => ?_⟩
  · obtain ⟨t, ht⟩ := State.select_of_get (s := s.setHost rest) hb
    obtain ⟨hblocks, hcur, hport, hframe⟩ := State.select_spec ht
    obtain rfl : b = t.cur := Option.some.inj (hb.symm.trans hcur)
    obtain ⟨hpins, htrace, hnum, hkeeps, hcalls, hworld, hhost, hresp, hread⟩ := hframe
    exact ⟨t, rfl, hport, hblocks, hpins, htrace, hnum, hkeeps, hcalls, hworld, hhost, hresp, hread,
      fun hh => step_command hh ht, fun hh => step_read hh ht⟩
  · exact step_noSuchInstance hn (hh.imp (fun h => ⟨cmd, v, h⟩) (fun h => ⟨view, h⟩))

end Sys2Proof.Machine
end

section
/-! The encoder's obligations (40_bitcodec.md): the two ends of `bin(v)`, and the two cases of `Encode(v, W)`. -/

namespace Sys2Proof.Machine

/-! ### The minimal representation (R21, R75) -/

theorem bin_of_pos {v : Nat} (h : 1 ≤ v) : bin v = digits v := if_neg (by omega)

/-- `bin` and `digits` differ at 0 only. -/
theorem digits_eq_ite_bin (n : Nat) : digits n = if n = 0 then [] else bin n := by
  split
  · next h => rw [h, digits_zero]
  · next h => exact (bin_of_pos (by omega)).symm

/-- The digits of a positive number begin with 1: the first digit is that of the half, down to 1 itself. -/
theorem head?_digits {n : Nat} (h : 1 ≤ n) : (digits n).head? = some true := by
  induction n using Nat.strongRecOn with
  | ind n ih =>
    rw [digits_step h]
    by_cases hhalf : 1 ≤ n / 2
    · rw [List.head?_append, ih (n / 2) (by omega) hhalf, Option.some_or]
    · obtain rfl : n = 1 := by omega
      rfl

/-- The last bit of `bin(v)` is the units bit. -/
theorem getLast?_bin (v : Nat) : (bin v).getLast? = some (decide (v % 2 = 1)) := by
  rcases Nat.eq_zero_or_pos v with rfl | hv
  · rfl
  · rw [bin_of_pos hv, digits_step hv, List.getLast?_concat]

/-! ### The cases of the encoder (R74, R76, R77) -/

theorem encode_of_blen_lt {v w : Nat} (h : blen v < w) :
    encodeValueBits v w = List.replicate (w - blen v) false ++ bin v := if_pos h

theorem encode_of_le_blen {v w : Nat} (h : w ≤ blen v) : encodeValueBits v w = bin v := if_neg (Nat.not_lt.2 h)

/-- Padding at the front leaves the units bit last. -/
theorem getLast?_encode (v w : Nat) : (encodeValueBits v w).getLast? = some (decide (v % 2 = 1)) := by
  rcases Nat.lt_or_ge (blen v) w with h | h
  · rw [encode_of_blen_lt h, List.getLast?_append, getLast?_bin, Option.some_or]
  · rw [encode_of_le_blen h, getLast?_bin]

/-- The value law makes the encoder injective (R79). -/
theorem encode_injective (w : Nat) : Function.Injective (encodeValueBits · w) :=
  Function.LeftInverse.injective (g := val) (val_encode · w)

end Sys2Proof.Machine

/-! ### The obligations

In a namespace of their own, so that `encodeValue` does not hide the command port's function of that name. -/

namespace Sys2Proof.Machine.BitCodec

/-- Settles O5: the first bit and the recursion are those of `digits`. -/
theorem binIsMinimal : Obligations.BinIsMinimal := by
  refine ⟨rfl, fun v hv => ⟨?_, ?_⟩⟩
  · rw [bin_of_pos hv, head?_digits hv]
  · rw [bin_of_pos hv, digits_step hv, digits_eq_ite_bin (v / 2)]

/-- Settles O6: the length is `max(blen(v), W)`, and `blen(v) <= W` exactly when `v < 2 ^ W`. -/
theorem encodeLength : Obligations.EncodeLength := by
  intro v w hw
  have hfit : blen v ≤ w ↔ v < 2 ^ w := blen_le_iff hw v
  rw [length_encode]
  refine ⟨rfl, Nat.le_max_right .., ?_, ?_⟩
  · rw [← hfit, max_eq_right_iff]
  · rw [← Nat.not_lt, ← hfit]
    omega

/-- Settles O7, by the value law. -/
theorem encodeValue : Obligations.EncodeValue := by
  intro v w _
  exact ⟨val_encode v w, fun _ h => encode_injective w h⟩

/-- Settles O8: the two cases of the encoder, its last bit, and the encoding of zero. -/
theorem encodePadsFront : Obligations.EncodePadsFront := by
  intro v w hw
  exact ⟨encode_of_blen_lt, encode_of_le_blen, getLast?_encode v w, encode_zero hw⟩

/-- Settles O9: the prefix law of registers, at a register of value `v`. -/
theorem encodePrefix : Obligations.EncodePrefix := by
  intro v w c _ _
  have h := val_take_drop (encodeValueBits v w) c
  rwa [val_encode] at h

end Sys2Proof.Machine.BitCodec
end

section
/-! The parallel transport and the sample (41_parallel_transport.md): what a completed TX.P and a completed sample
leave, the pins and their levels among it, and how many pin calls a command makes. -/

namespace Sys2Proof.Machine

/-! ### The configuration of a supported block (R16) -/

theorem outPins_nodup {c : Config} (hw : c.wf = true) (hm : c.mode = .par) : c.outPins.Nodup := by
  obtain ⟨-, -, -, -, -, hn⟩ := wf_clauses hw
  exact ((pins_nodup_iff c).1 hn).1 hm |>.of_append_left

theorem inPins_nodup {c : Config} (hw : c.wf = true) : c.inPins.Nodup := by
  obtain ⟨-, -, -, -, -, hn⟩ := wf_clauses hw
  obtain ⟨hpar, hbus⟩ := (pins_nodup_iff c).1 hn
  cases hm : c.mode with
  | par => exact (hpar hm).of_append_right
  | bus => exact (hbus hm).of_append_left

/-! ### TX.P as a whole (R87) -/

/-- A natural operand is accepted (R64). -/
theorem nonNegative_natCast (v : Nat) (s : State) : nonNegative (v : Int) s = .done v s := by
  simp [nonNegative]

/-- On an idle open block the end of a transmit leaves what it performed, ERR and the response. -/
theorem finish_setErr_of_opened {s : State} (h : s.cur.Idle) (hl : s.cur.life = .opened) (e : Option Bit)
    (r : Response) : finish r (s.setErr e) = (s.setErr e).pushResponse r := by
  obtain ⟨hbusy, hreg, hidx, -⟩ := h
  exact finish_idle (s := s.setErr e) ⟨hbusy, hreg, hidx, fun hc => absurd (hl.symm.trans hc) nofun⟩ r

/-- Settles O19: the body of the command runs whole, and on an idle block its end leaves only the response. -/
theorem txPCompletes : Obligations.TxPCompletes := by
  intro s v ⟨hsup, hidle, hlife⟩ hf
  have ⟨_, _, _, hwf, _⟩ := hsup
  obtain ⟨-, -, hout, -⟩ := wf_clauses hwf
  rw [exec_legal hsup hlife]
  simp only [bodyOf, nonNegative_natCast, Res.bind_done]
  rw [parallelTransmit_run (s := s.setBusy true) hout v hf,
    ← finish_setErr_of_opened (s := s.perform 16 (txPEvents s.cur.cfg v)) hidle hlife]
  rfl

/-! ### The output pins after a TX.P (R88, R89) -/

/-- After the 16 events pin `OUTPINS[i]` is an output at bit `i` of the register (R87). -/
theorem get_outPin_txPEvents {c : Config} (hn : c.outPins.Nodup) {i : Nat} {p : PinId}
    (hp : c.outPins[i]? = some p) (v : Nat) (keeps : Bool) (ps : Pins) :
    (ps.replay keeps (txPEvents c v)).get p = ⟨.out, some ((encodeValueBits v 8).getD i false)⟩ := by
  have hdistinct : (c.outPins.zipIdx.reverse.map Prod.fst).Nodup := by
    rwa [List.map_reverse, List.zipIdx_map_fst, List.nodup_reverse]
  have hmem : (p, i) ∈ c.outPins.zipIdx.reverse := by
    rwa [List.mem_reverse, List.mk_mem_zipIdx_iff_getElem?]
  exact Pins.replay_turns (Q := fun e cell => cell = ⟨.out, some ((encodeValueBits v 8).getD e.2 false)⟩)
    (pinWriteEvents_pin _) (fun e keeps ps => Pins.get_pinWrite ps keeps _ e) hdistinct keeps ps _ hmem

/-- A TX.P that completes: pin `OUTPINS[i]` is an output at element `i` of the register, which is within it, and ERR
is updated (R26, R87). -/
theorem exec_txP_shows {s : State} (hs : s.Ready .par .opened) (hf : s.NoFail 16) (v : Nat) :
    ∃ t, exec (.txP (v : Int)) s = .next t ∧
      t.cur.err = some (errResult s.cur.cfg.errMode (max (blen v) 8) 8) ∧
      ∀ (i : Nat) (p : PinId), s.cur.cfg.outPins[i]? = some p →
        i < 8 ∧ (t.pins.get p).dir = .out ∧ t.level p = (encodeValueBits v 8)[i]? := by
  refine ⟨_, txPCompletes s v hs hf, rfl, fun i p hp => ?_⟩
  obtain ⟨⟨-, -, hmode, hwf, -⟩, -, -⟩ := hs
  obtain ⟨-, -, hout, -⟩ := wf_clauses hwf
  obtain ⟨hi, -⟩ := List.getElem?_eq_some_iff.1 hp
  rw [hout] at hi
  have hlen : i < (encodeValueBits v 8).length := by
    rw [length_encode]
    omega
  have hget := get_outPin_txPEvents (outPins_nodup hwf hmode) hp v s.reconfKeepsLevel s.pins
  refine ⟨hi, ?_, ?_⟩
  · simp [hget]
  · simp [State.level, hget, List.getElem?_eq_getElem hlen]

/-- Element `i` of a register is the bit of its value at the place counted from the end (R19). -/
theorem getElem?_eq_bit_of_val {r : BitReg} {i : Nat} (hi : i < r.length) :
    r[i]? = some (decide (val r / 2 ^ (r.length - (i + 1)) % 2 = 1)) := by
  have htake : r.take (i + 1) = r.take i ++ [r[i]] := List.take_succ_eq_append_getElem hi
  have hval := (val_take_drop r (i + 1)).1
  rw [htake, val_append_bit] at hval
  rw [← hval, List.getElem?_eq_getElem hi]
  cases r[i] <;> simp

/-- Settles O21: a value below 256 fills the eight places, so element `i` is its bit `7 - i`. -/
theorem txPFinalLevels : Obligations.TxPFinalLevels := by
  intro s v hs hf hv
  obtain ⟨t, ht, -, hpins⟩ := exec_txP_shows hs hf v
  have hfit : blen v ≤ 8 := (blen_le_iff (by decide) v).2 hv
  have hlen : (encodeValueBits v 8).length = 8 := by rw [length_encode, max_eq_right hfit]
  refine ⟨t, ht, fun i p hp => ?_⟩
  obtain ⟨hi, hdir, hlevel⟩ := hpins i p hp
  have hbit := getElem?_eq_bit_of_val (r := encodeValueBits v 8) (hlen.symm ▸ hi)
  rw [val_encode, hlen, Nat.add_comm i 1, ← Nat.sub_sub] at hbit
  exact ⟨hdir, hlevel.trans hbit, hlevel⟩

/-- ERR in CORRECTED mode after a value that overflows the eight pins (R26). -/
theorem errResult_corrected_of_lt {len cap : Nat} (h : cap < len) : errResult .corrected (max len cap) cap = true := by
  simp [errResult, h]

/-- Settles O22: the pins show the first eight bits of the register, whose value is that of R84 (d). -/
theorem txPOverflowLevels : Obligations.TxPOverflowLevels := by
  intro s v hs hf hv
  obtain ⟨t, ht, herr, hpins⟩ := exec_txP_shows hs hf v
  have hover : 8 < blen v := Nat.lt_of_not_le fun hle => Nat.not_lt.2 hv ((blen_le_iff (by decide) v).1 hle)
  have hlen : (encodeValueBits v 8).length = blen v := by rw [length_encode, max_eq_left hover.le]
  refine ⟨t, (encodeValueBits v 8).take 8, ht, ?_, ?_, fun i p hp => ?_, fun hm => ?_, fun hm => ?_⟩
  · rw [List.length_take, hlen, min_eq_left hover.le]
  · rw [(val_take_drop _ 8).1, val_encode, hlen]
  · obtain ⟨hi, -, hlevel⟩ := hpins i p hp
    rw [hlevel, List.getElem?_take_of_lt hi]
  · rw [herr, hm]
    rfl
  · rw [herr, hm, errResult_corrected_of_lt hover]

/-! ### The sample (R91, R92, R102) -/

/-- The two samples (R63). -/
theorem eq_rx_of_samples {i : Instr} (hk : i.kind = .samples) : i = .rxP ∨ i = .rxB := by
  cases i with
  | rxP => exact .inl rfl
  | rxB => exact .inr rfl
  | openP | txP | closeP | openB | txB | closeB => cases hk

/-- Both samples are legal on an open block and have one body (R66, R92, R102). -/
theorem exec_samples_legal {i : Instr} {s : State} (hk : i.kind = .samples) (hsup : s.Supported i.mode)
    (hl : s.cur.life = .opened) :
    exec i s = endOf ((sample (s.setBusy true)).bind fun r s => .done (some r) s) := by
  rcases eq_rx_of_samples hk with rfl | rfl
  · exact exec_legal hsup hl
  · exact exec_legal hsup hl

/-- A sample that completes leaves its reads and its response. -/
theorem exec_samples_done {i : Instr} {s : State} (hk : i.kind = .samples) (hs : s.Ready i.mode .opened)
    (hf : s.NoFail (2 * s.cur.cfg.nin)) :
    exec i s = .next ((s.perform (2 * s.cur.cfg.nin)
      (sampleEvents s.cur.cfg (s.sampleLevels s.cur.cfg.nin))).pushResponse
        ⟨.ok, some (s.sampleLevels s.cur.cfg.nin)⟩) := by
  obtain ⟨hsup, hidle, hlife⟩ := hs
  rw [exec_samples_legal hk hsup hlife, sample_run (s.setBusy true) hf,
    ← finish_idle (s := s.perform _ (sampleEvents s.cur.cfg (s.sampleLevels s.cur.cfg.nin))) hidle]
  rfl

theorem length_sampleLevels (s : State) (n : Nat) : (s.sampleLevels n).length = n := by
  simp [State.sampleLevels]

/-- Element `i` of a sample is what the world presented at its read (R33, R91). -/
theorem getElem?_sampleLevels (s : State) {n i : Nat} (hi : i < n) :
    (s.sampleLevels n)[i]? = some (s.answer (s.calls + 2 * i + 1)).level := by
  simp [State.sampleLevels, hi]

/-- Settles O23: the two samples are one body, and its result is the levels at the reads. -/
theorem rxCompletes : Obligations.RxCompletes := by
  rintro s hf r rfl
  exact ⟨fun hs => exec_samples_done (i := .rxP) rfl hs hf, fun hs => exec_samples_done (i := .rxB) rfl hs hf,
    length_sampleLevels s _, fun i hi => getElem?_sampleLevels s hi⟩

/-- After the events of a sample every pin of the bank is an input (R91). -/
theorem dir_inPin_sampleEvents {c : Config} (hn : c.inPins.Nodup) {levels : BitReg} (hl : levels.length = c.nin)
    {p : PinId} (hp : p ∈ c.inPins) (keeps : Bool) (ps : Pins) :
    ((ps.replay keeps (sampleEvents c levels)).get p).dir = .inp := by
  have hfst : (c.inPins.zip levels).map Prod.fst = c.inPins := List.map_fst_zip hl.ge
  rw [← hfst] at hp
  obtain ⟨e, he, rfl⟩ := List.mem_map.1 hp
  exact Pins.replay_turns (Q := fun _ cell => cell.dir = .inp) pinReadEvents_pin
    (fun e keeps ps => Pins.dir_pinRead ps keeps e) (hfst.symm ▸ hn) keeps ps e he

/-- Settles O25: each input is as its own turn left it, and the events of a sample spare every other pin. -/
theorem rxLeavesInputs : Obligations.RxLeavesInputs := by
  intro i s hk hs hf
  refine ⟨_, exec_samples_done hk hs hf, fun p hp => ?_, fun p hp => ?_⟩
  · obtain ⟨⟨-, -, -, hwf, -⟩, -, -⟩ := hs
    exact dir_inPin_sampleEvents (inPins_nodup hwf) (length_sampleLevels s _) hp _ _
  · exact (sampleEvents_spares hp _).get_replay _ _

/-! ### How many pin calls a command makes (R93, R103) -/

theorem callBound_of_samples {i : Instr} (hk : i.kind = .samples) (c : Config) : i.callBound c = 2 * c.nin := by
  rcases eq_rx_of_samples hk with rfl | rfl <;> rfl

/-- However a command ends, the pin calls it has made are within its bound; a failing call `n` is number `n + 1`. -/
theorem Ends.calls {i : Instr} {s t : State} (h : Ends s i t) :
    ∃ n, t.calls = s.calls + n ∧ n ≤ i.callBound s.cur.cfg := by
  cases h with
  | lifecycle | opened | invalid => exact ⟨0, rfl, Nat.zero_le _⟩
  | txPDone | txBDone | closePDone | closePFail | closeBDone | closeBRelease => exact ⟨_, rfl, le_rfl⟩
  | txPFail _ _ hn | txBFail _ _ hn => exact ⟨_, rfl, hn⟩
  | closeBFail _ hn => exact ⟨_, rfl, Nat.le_succ_of_le hn⟩
  | rxDone hk => exact ⟨_, rfl, (callBound_of_samples hk _).ge⟩
  | rxFail hk _ hn => exact ⟨_, rfl, callBound_of_samples hk _ ▸ hn⟩

/-- Settles O51, by the ways a command ends. -/
theorem pinCallBound : Obligations.PinCallBound := by
  intro i s t h
  obtain ⟨n, hn, hbound⟩ := (exec_cases h).2.calls
  omega

end Sys2Proof.Machine
end

section
/-! The bus transport (42_bus_transport.md): what a completed TX.B leaves, the bits it sends, the levels and the time of
its bit-cycles. -/

namespace Sys2Proof.Machine

/-! ### TX.B as a whole (R95, R96) -/

/-- Settles O26: the body of the command runs whole, and on an idle block its end leaves only the response. -/
theorem txBCompletes : Obligations.TxBCompletes := by
  intro s v ⟨hsup, hidle, hlife⟩ hf
  rw [exec_legal hsup hlife]
  simp only [bodyOf, nonNegative_natCast, Res.bind_done]
  rw [busTransmit_run (s.setBusy true) v hf,
    ← finish_setErr_of_opened (s := s.perform (5 * s.cur.cfg.w) (busEvents s.cur.cfg v)) hidle hlife]
  rfl

/-! ### The configuration of a ready bus block (R16) -/

/-- R16 (e): the two pins of the bus are distinct. -/
theorem dataPin_ne_clockPin {c : Config} (hw : c.wf = true) (hm : c.mode = .bus) : c.dataPin ≠ c.clockPin := by
  obtain ⟨-, -, -, -, -, hn⟩ := wf_clauses hw
  have hpins : [c.dataPin, c.clockPin].Nodup := (((pins_nodup_iff c).1 hn).2 hm).of_append_right
  simpa using hpins

/-- What R16 gives a ready bus block that its transmits rest on. -/
theorem State.Ready.bus_clauses {s : State} {l : Life} (h : s.Ready .bus l) :
    1 ≤ s.cur.cfg.w ∧ Config.minSettle ≤ s.cur.cfg.tSettle ∧ s.cur.cfg.dataPin ≠ s.cur.cfg.clockPin := by
  obtain ⟨⟨-, -, hmode, hwf, -⟩, -, -⟩ := h
  obtain ⟨hw, -, -, -, hsettle, -⟩ := wf_clauses hwf
  exact ⟨hw, hsettle, dataPin_ne_clockPin hwf hmode⟩

/-! ### The bits a TX.B sends (R99, R100) -/

/-- The register is never shorter than the bus is wide, so `W` bits are sent (R78). -/
theorem length_take_encode (v w : Nat) : ((encodeValueBits v w).take w).length = w := by
  rw [List.length_take, length_encode, min_eq_left (le_max_right ..)]

/-- A value below `2 ^ W` fills the register exactly (R78). -/
theorem length_encode_of_lt {v w : Nat} (hw : 1 ≤ w) (hv : v < 2 ^ w) : (encodeValueBits v w).length = w := by
  rw [length_encode, max_eq_right ((blen_le_iff hw v).2 hv)]

/-- A value that fits is sent whole (R100 a). -/
theorem val_take_encode_of_lt {v w : Nat} (hw : 1 ≤ w) (hv : v < 2 ^ w) :
    val ((encodeValueBits v w).take w) = v := by
  rw [List.take_of_length_le (length_encode_of_lt hw hv).le, val_encode]

/-- Of a value that overflows the `blen(v) - W` low-order bits are not sent (R100 b). -/
theorem val_take_encode_of_le {v w : Nat} (hw : 1 ≤ w) (hv : 2 ^ w ≤ v) :
    val ((encodeValueBits v w).take w) = v / 2 ^ (blen v - w) := by
  have hover : w < blen v := Nat.lt_of_not_le fun hle => Nat.not_lt.2 hv ((blen_le_iff hw v).1 hle)
  rw [(val_take_drop _ w).1, val_encode, length_encode, max_eq_left hover.le]

/-- Settles O28: the events are the bit-cycles of the first `W` bits of the register. -/
theorem txBPulsesAndData : Obligations.TxBPulsesAndData := by
  intro s v hs hf
  obtain ⟨hw, -, hne⟩ := hs.bus_clauses
  have hdata : writesTo s.cur.cfg.dataPin (busEvents s.cur.cfg v) =
      (encodeValueBits v s.cur.cfg.w).take s.cur.cfg.w := writesTo_data hne _
  refine ⟨_, busEvents s.cur.cfg v, txBCompletes s v hs hf, rfl, ?_, hdata, fun hv => ?_, fun hv => ?_,
    List.getLast?_concat, fun hm => ?_⟩
  · exact (clockPulses_bits hne _).trans (length_take_encode v s.cur.cfg.w)
  · rw [hdata, val_take_encode_of_lt hw hv]
  · rw [hdata, val_take_encode_of_le hw hv]
  · simp [hm, errResult]

/-! ### The pins after a TX.B (R101) -/

/-- After the events of a bus transmit the data pin is an output at the last bit sent and the clock pin one at 0. -/
theorem get_busEvents {c : Config} (hne : c.dataPin ≠ c.clockPin) (hw : 1 ≤ c.w) (v : Nat) (keeps : Bool)
    (ps : Pins) :
    (ps.replay keeps (busEvents c v)).get c.dataPin = ⟨.out, (encodeValueBits v c.w)[c.w - 1]?⟩ ∧
      (ps.replay keeps (busEvents c v)).get c.clockPin = ⟨.out, some false⟩ := by
  have hlt : c.w - 1 < (encodeValueBits v c.w).length := by
    rw [length_encode]
    omega
  have hlast := List.take_succ_eq_append_getElem hlt
  rw [Nat.sub_add_cancel hw] at hlast
  rw [busEvents, hlast, List.getElem?_eq_getElem hlt]
  exact Pins.get_bitCycles hne keeps _ _ ps

/-- The last of `W` bits of a value that fits is its units bit. -/
theorem getElem?_encode_last {v w : Nat} (hw : 1 ≤ w) (hv : v < 2 ^ w) :
    (encodeValueBits v w)[w - 1]? = some (decide (v % 2 = 1)) := by
  rw [← getLast?_encode v w, List.getLast?_eq_getElem?, length_encode_of_lt hw hv]

/-- The level of a pin configured as output is what drives it (R59). -/
theorem State.level_of_get {s : State} {p : PinId} {d : Option Bit} (h : s.pins.get p = ⟨.out, d⟩) :
    s.level p = d := by
  simp [State.level, h]

/-- Settles O29: the last bit-cycle decides both pins, and the events spare every other pin. -/
theorem txBFinalLevels : Obligations.TxBFinalLevels := by
  intro s v hs hf
  obtain ⟨hw, -, hne⟩ := hs.bus_clauses
  obtain ⟨hdata, hclock⟩ := get_busEvents hne hw v s.reconfKeepsLevel s.pins
  refine ⟨_, txBCompletes s v hs hf, State.level_of_get hdata, State.level_of_get hclock, fun hv => ?_,
    fun p hpd hpc => ?_⟩
  · exact (State.level_of_get hdata).trans (getElem?_encode_last hw hv)
  · exact (busEvents_spares (by simp [hpd, hpc]) v).get_replay _ _

/-! ### The time a TX.B takes (R98) -/

/-- Settles O30: two settle intervals for each of the `W` bits, none shorter than R12 allows. -/
theorem txBLeastTime : Obligations.TxBLeastTime := by
  intro s v hs hf
  obtain ⟨-, hsettle, -⟩ := hs.bus_clauses
  have htime : leastTime (busEvents s.cur.cfg v) = 2 * s.cur.cfg.w * s.cur.cfg.tSettle := by
    rw [busEvents, leastTime_bits, length_take_encode]
    ring
  refine ⟨_, _, txBCompletes s v hs hf, rfl, htime, ?_⟩
  rw [htime]
  exact Nat.mul_le_mul_left _ hsettle

/-! ### The clock pin at the data write (R104) -/

/-- The clock pin after the two configures of a bit-cycle: its own decides, whatever the data pin's did. -/
theorem get_clockPin_configures {c : Config} (hne : c.dataPin ≠ c.clockPin) (keeps : Bool) (ps : Pins) :
    (ps.replay keeps [.cfg c.dataPin .out, .cfg c.clockPin .out]).get c.clockPin =
      ⟨.out, if (ps.get c.clockPin).dir = .out && keeps then (ps.get c.clockPin).drv else none⟩ := by
  simp only [Pins.replay_cons, Pins.replay_nil, Pins.apply]
  rw [Pins.get_configure_self, Pins.get_configure_ne hne.symm]
  rfl

/-- Settles O31: the configures meet a clock pin that is no output, or the one a bit-cycle left at 0. -/
theorem clockLevelAroundBitCycles : Obligations.ClockLevelAroundBitCycles := by
  intro c ps b keeps hne
  refine ⟨fun hdir => ?_, ?_⟩
  · rw [get_clockPin_configures hne]
    simp [hdir]
  · obtain ⟨-, hclock⟩ := Pins.get_bitCycle hne ps keeps b
    rw [Pins.replay_append, get_clockPin_configures hne, hclock]
    simp

end Sys2Proof.Machine
end

section
/-! The lifetime commands (43_lifecycle.md): what OPEN and CLOSE leave, a CLOSE that fails, and that a closed block
opens again as a new one. -/

namespace Sys2Proof.Machine

/-! ### The ends of OPEN and CLOSE on an idle block (R108, R110) -/

/-- A block that OPEN or CLOSE has written is idle: it has no ERR, whatever its LIFE (R39). -/
theorem finish_setLife_setErr_none {s : State} (h : s.cur.Idle) (l : Life) (r : Response) :
    finish r ((s.setErr none).setLife l) = ((s.setErr none).setLife l).pushResponse r := by
  obtain ⟨hbusy, hreg, hidx, -⟩ := h
  exact finish_idle (s := (s.setErr none).setLife l) ⟨hbusy, hreg, hidx, fun _ => rfl⟩ r

/-! ### OPEN (R58, R108, R109) -/

/-- The acquire completes where the opened block shares no pin (R58). -/
theorem openInstance_done {s : State} (h : (s.setLife .opened).openDisjoint = true) :
    openInstance s = .done none ((s.setErr none).setLife .opened) := by
  have hd : ((s.setErr none).setLife .opened).openDisjoint = true := h ▸ State.openDisjoint_congr rfl rfl rfl rfl
  rw [openInstance, if_pos hd]

/-- Both OPENs have one body and are legal on a closed block (R63, R66). -/
theorem exec_opens_legal {o : Instr} {s : State} (hk : o.kind = .opens) (hsup : s.Supported o.mode)
    (hl : s.cur.life = .closed) : exec o s = endOf (openInstance (s.setBusy true)) := by
  cases o with
  | openP | openB => exact exec_legal hsup hl
  | txP | rxP | closeP | txB | rxB | closeB => cases hk

/-- An OPEN of a ready closed block that shares no pin leaves LIFE, ERR and its response. -/
theorem exec_opens_done {o : Instr} {s : State} (hk : o.kind = .opens) (hs : s.Ready o.mode .closed)
    (hd : (s.setLife .opened).openDisjoint = true) :
    exec o s = .next (((s.setErr none).setLife .opened).pushResponse .okay) := by
  obtain ⟨hsup, hidle, hlife⟩ := hs
  have hd' : ((s.setBusy true).setLife .opened).openDisjoint = true := hd ▸ State.openDisjoint_congr rfl rfl rfl rfl
  rw [exec_opens_legal hk hsup hlife, openInstance_done hd', ← finish_setLife_setErr_none hidle]
  rfl

/-- Settles O17: the two OPENs are one body. -/
theorem openCompletes : Obligations.OpenCompletes := by
  intro s hd
  exact ⟨fun hs => exec_opens_done (o := .openP) rfl hs hd, fun hs => exec_opens_done (o := .openB) rfl hs hd⟩

/-! ### CLOSE.P (R110) -/

/-- CLOSE.P is the release alone. -/
theorem exec_closeP_ready {s : State} (hs : s.Ready .par .opened) :
    exec .closeP s = endOf (releaseInstance (s.setBusy true)) := by
  obtain ⟨hsup, -, hlife⟩ := hs
  exact exec_legal hsup hlife

/-- Settles O32: the release is the one pin call, and it leaves the empty pin list. -/
theorem closePCompletes : Obligations.ClosePCompletes := by
  intro s hs hf
  refine ⟨?_, fun _ => rfl⟩
  have ⟨_, hidle, _⟩ := hs
  rw [exec_closeP_ready hs, releaseInstance_done (s := s.setBusy true) (hf.head Nat.one_pos),
    ← finish_setLife_setErr_none (s := s.perform 1 [.rstAll]) hidle]
  rfl

/-- Settles O33: an idle block has no index to report, and the failed call leaves only its event. -/
theorem closePFails : Obligations.ClosePFails := by
  intro s hs ⟨_, hfail⟩
  have ⟨_, hidle, _⟩ := hs
  have ⟨_, _, hidx, _⟩ := hidle
  rw [exec_closeP_ready hs, releaseInstance_failed (s := s.setBusy true) hfail, State.setBusy_cur, hidx,
    ← finish_idle (s := s.perform 1 [.fail .resetAll]) hidle]
  rfl

/-! ### CLOSE.B (R111) -/

/-- CLOSE.B is the teardown transmit of 0, then the release. -/
theorem exec_closeB_ready {s : State} (hs : s.Ready .bus .opened) :
    exec .closeB s = endOf ((busTransmit 0 (s.setBusy true)).bind fun _ s => releaseInstance s) := by
  obtain ⟨hsup, -, hlife⟩ := hs
  exact exec_legal hsup hlife

/-- Once the teardown has not failed, CLOSE.B ends as its release does. -/
theorem exec_closeB_after_teardown {s : State} (hs : s.Ready .bus .opened) (hf : s.NoFail (5 * s.cur.cfg.w)) :
    exec .closeB s = endOf (releaseInstance (afterTeardown (s.setBusy true))) := by
  have hrun : busTransmit 0 (s.setBusy true) = .done () (afterTeardown (s.setBusy true)) :=
    busTransmit_run (s.setBusy true) 0 hf
  rw [exec_closeB_ready hs, hrun, Res.bind_done]

/-- The teardown sends `W` zero bits (R80, R111). -/
theorem busEvents_zero {c : Config} (hw : 1 ≤ c.w) :
    busEvents c 0 = (List.replicate c.w false).flatMap (bitCycleEvents c) := by
  rw [busEvents, encode_zero hw, List.take_replicate, Nat.min_self]

/-- Settles O34: teardown and release run whole, and the bits of 0 are all pad bits. -/
theorem closeBCompletes : Obligations.CloseBCompletes := by
  intro s hs hf
  obtain ⟨hw, -, -⟩ := hs.bus_clauses
  have ⟨_, hidle, _⟩ := hs
  have hrelease : (s.answer (s.calls + 5 * s.cur.cfg.w)).fails = false := hf _ (Nat.lt_succ_self _)
  rw [← busEvents_zero hw, exec_closeB_after_teardown hs (hf.mono (Nat.le_succ _)),
    releaseInstance_done (s := afterTeardown (s.setBusy true)) hrelease,
    ← finish_setLife_setErr_none (s := s.perform _ _) hidle, ← finish_closeB_done]
  rfl

/-- Settles O35: the teardown fails as a transmit of 0 does, before its ERR update; the release fails after it, and
0 never overflows. -/
theorem closeBFails : Obligations.CloseBFails := by
  intro s hs
  have ⟨_, hidle, hlife⟩ := hs
  refine ⟨fun n hn hf => ?_, fun hf => ?_⟩
  · obtain ⟨es, c, hcut, hbody⟩ := busTransmit_fail (s.setBusy true) 0 hn hf
    refine ⟨es, c, hcut, ?_⟩
    rw [exec_closeB_ready hs, hbody, ← finish_idle (s := s.perform (n + 1) es) hidle]
    rfl
  · obtain ⟨hteardown, hrelease⟩ := hf
    obtain ⟨hw, -, -⟩ := hs.bus_clauses
    rw [exec_closeB_after_teardown hs hteardown,
      releaseInstance_failed (s := afterTeardown (s.setBusy true)) hrelease,
      ← finish_setErr_of_opened (s := s.perform _ _) hidle hlife, ← finish_closeB_failed hw]
    rfl

/-! ### OPEN after CLOSE (R112) -/

/-- A CLOSE without failures, of either transport: its events, then ERR, LIFE and the response. -/
theorem exec_closes_done {c : Instr} {s : State} (hk : c.kind = .closes) (hs : s.Ready c.mode .opened)
    (hf : s.NoFail (c.callBound s.cur.cfg)) :
    ∃ n es, exec c s = .next ((((s.perform n es).setErr none).setLife .closed).pushResponse .okay) := by
  cases c with
  | closeP => exact ⟨_, _, (closePCompletes s hs hf).1⟩
  | closeB => exact ⟨_, _, closeBCompletes s hs hf⟩
  | openP | txP | rxP | openB | txB | rxB => cases hk

/-- An idle block without ERR that is closed is one as after reset (R40). -/
theorem eq_initial_of_idle {b : Block} (h : b.Idle) :
    { b with err := none, life := .closed } = Block.initial b.cfg := by
  obtain ⟨hbusy, hreg, hidx, -⟩ := h
  simp only [Block.initial, hbusy, hreg, hidx]

/-- What a CLOSE leaves of a ready open block is a ready closed one. -/
theorem State.Ready.of_closed {m : Mode} {s : State} (hs : s.Ready m .opened) (n : Nat) (es : List Event)
    (r : Response) : ((((s.perform n es).setErr none).setLife .closed).pushResponse r).Ready m .closed := by
  obtain ⟨⟨hnum, hbusy, hmode, hwf, hd⟩, ⟨hb, hreg, hidx, -⟩, -⟩ := hs
  exact ⟨⟨hnum, forall_blocks_of_cur (s := s) rfl rfl hbusy hb, hmode, hwf,
    State.openDisjoint_of_closed (s := s) rfl rfl rfl hd⟩, ⟨hb, hreg, hidx, fun _ => rfl⟩, rfl⟩

/-- Settles O37: CLOSE leaves a ready closed block, and opened again it shares no pin since it shared none before. -/
theorem reopenAfterClose : Obligations.ReopenAfterClose := by
  rintro m c o s hc rfl ho hm hs hf
  obtain ⟨n, es, hclose⟩ := exec_closes_done hc hs hf
  have ⟨⟨_, _, _, _, hdisjoint⟩, hidle, hlife⟩ := hs
  have hcur := eq_initial_of_idle hidle
  refine ⟨_, _, hclose, hcur, exec_opens_done ho (hm ▸ hs.of_closed n es .okay) ?_, ?_, rfl, rfl⟩
  · exact hdisjoint ▸ State.openDisjoint_congr rfl rfl rfl hlife.symm
  · rw [← hcur]
    rfl

end Sys2Proof.Machine
end

section
/-! The statuses (60_exceptions.md): the commands that end at a failed pin call, the negative operand, and which command
reports which status. -/

namespace Sys2Proof.Machine

/-! ### The end of a command whose body raises (R124) -/

/-- A command of a ready block whose body raises a status answers with it; `w` is what the body has done, with the
block as it was, once the transient fields have lost their values (R39). -/
theorem exec_raised {i : Instr} {s u w : State} {x : Status} (hs : s.Ready i.mode i.legalLife)
    (hbody : bodyOf i (s.setBusy true) = .raised x u) (hcur : w.cur = s.cur)
    (hw : finish ⟨x, none⟩ u = finish ⟨x, none⟩ w) : exec i s = .next (w.pushResponse ⟨x, none⟩) := by
  obtain ⟨hsup, hidle, hlife⟩ := hs
  rw [exec_legal hsup hlife, hbody, ← finish_idle (s := w) (hcur ▸ hidle), ← hw]
  rfl

/-! ### The first failing pin call ends the command (R117) -/

section Body
variable {s u : State} {x : Status}

theorem bodyOf_txP_raised {v : Nat} (h : parallelTransmit v s = .raised x u) :
    bodyOf (.txP (v : Int)) s = .raised x u := by
  simp only [bodyOf, nonNegative_natCast, Res.bind_done, h, Res.bind_raised]

theorem bodyOf_txB_raised {v : Nat} (h : busTransmit v s = .raised x u) :
    bodyOf (.txB (v : Int)) s = .raised x u := by
  simp only [bodyOf, nonNegative_natCast, Res.bind_done, h, Res.bind_raised]

theorem bodyOf_samples_raised {i : Instr} (hk : i.kind = .samples) (h : sample s = .raised x u) :
    bodyOf i s = .raised x u := by
  rcases eq_rx_of_samples hk with rfl | rfl <;> simp only [bodyOf, h, Res.bind_raised]

end Body

/-- Settles O20: the body ends at the call, before ERR is updated. -/
theorem txPStopsAtFailedCall : Obligations.TxPStopsAtFailedCall := by
  intro s v n hs hn hf
  have ⟨⟨_, _, _, hwf, _⟩, _, _⟩ := hs
  obtain ⟨-, -, hout, -⟩ := wf_clauses hwf
  obtain ⟨es, c, hcut, hfail⟩ := parallelTransmit_fail (s := s.setBusy true) hout v hn hf
  exact ⟨es, c, hcut, exec_raised (i := .txP v) hs (bodyOf_txP_raised hfail) rfl rfl⟩

/-- Settles O24: the two samples are one body, which ends at the call. -/
theorem rxStopsAtFailedCall : Obligations.RxStopsAtFailedCall := by
  intro s n hn hf
  obtain ⟨es, c, hcut, hfail⟩ := sample_fail (s.setBusy true) hn hf
  exact ⟨es, c, hcut, fun hs => exec_raised (i := .rxP) hs (bodyOf_samples_raised rfl hfail) rfl rfl,
    fun hs => exec_raised (i := .rxB) hs (bodyOf_samples_raised rfl hfail) rfl rfl⟩

/-- Settles O27: the body ends at the call, in its bit-cycle and before ERR is updated. -/
theorem txBStopsAtFailedCall : Obligations.TxBStopsAtFailedCall := by
  intro s v n hs hn hf
  obtain ⟨es, c, hcut, hfail⟩ := busTransmit_fail (s.setBusy true) v hn hf
  exact ⟨es, c, hcut, exec_raised (i := .txB v) hs (bodyOf_txB_raised hfail) rfl rfl⟩

/-! ### Which command reports which status (R114) -/

/-- What a status tells of the command `i` that reported it, begun in `s` and ended in `t`. -/
inductive StatusFits (s t : State) (i : Instr) : Status → Prop
  | ok (hl : s.cur.life = i.legalLife) : StatusFits s t i .ok
  | invalid {v : Int} (hl : s.cur.life = i.legalLife) (hv : v < 0) (hi : i = .txP v ∨ i = .txB v) :
      StatusFits s t i (.invalidInput v)
  | failed {c : PinCall} {n : Option Nat} (hl : s.cur.life = i.legalLife) (hk : i.kind ≠ .opens)
      (ht : t.trace.getLast? = some (.fail c)) : StatusFits s t i (.pinAccessFailure c n)
  | lifecycle (hl : s.cur.life ≠ i.legalLife) : StatusFits s t i (.lifecycleViolation s.cur.life)

/-- An OPEN is legal on a closed block, every other command on an open one (R66). -/
theorem legalLife_eq (i : Instr) : i.legalLife = if i.kind = .opens then .closed else .opened := by
  cases i <;> rfl

theorem legalLife_of_not_opens {i : Instr} (hk : i.kind ≠ .opens) : i.legalLife = .opened := by
  rw [legalLife_eq, if_neg hk]

/-- A command that has ended at a failed call, the last of its events, fits the status that reports it. -/
theorem statusFits_failed {s t : State} {i : Instr} {c : PinCall} {es : List Event} (n : Option Nat)
    (hl : s.cur.life = .opened) (hk : i.kind ≠ .opens) (hlast : es.getLast? = some (.fail c))
    (ht : t.trace = s.trace ++ es) : StatusFits s t i (.pinAccessFailure c n) := by
  refine .failed (hl.trans (legalLife_of_not_opens hk).symm) hk ?_
  rw [ht, List.getLast?_append, hlast, Option.some_or]

/-- However a command ends, its status fits. -/
theorem Ends.status {i : Instr} {s t : State} (h : Ends s i t) :
    ∃ r, t.responses = s.responses ++ [r] ∧ StatusFits s t i r.status := by
  cases h with
  | lifecycle hl => exact ⟨_, rfl, .lifecycle hl⟩
  | opened hk hl => exact ⟨_, rfl, .ok (by rw [legalLife_eq, if_pos hk, hl])⟩
  | invalid hv hi hl =>
    refine ⟨_, rfl, .invalid ?_ hv hi⟩
    rcases hi with rfl | rfl <;> exact hl
  | txPDone _ hl | txBDone _ hl | closePDone hl | closeBDone hl => exact ⟨_, rfl, .ok hl⟩
  | rxDone hk hl => exact ⟨_, rfl, .ok (hl.trans (legalLife_of_not_opens (by simp [hk])).symm)⟩
  | txPFail _ hl _ _ hc | txBFail _ hl _ _ hc | closeBFail hl _ _ hc =>
    exact ⟨_, rfl, statusFits_failed _ hl nofun (cutAtCall_spec hc).1 rfl⟩
  | rxFail hk hl _ _ hc => exact ⟨_, rfl, statusFits_failed _ hl (by simp [hk]) (cutAtCall_spec hc).1 rfl⟩
  | closePFail hl => exact ⟨_, rfl, statusFits_failed _ hl nofun rfl rfl⟩
  | closeBRelease hl => exact ⟨_, rfl, statusFits_failed _ hl nofun List.getLast?_concat rfl⟩

section StatusFits
variable {s t : State} {i : Instr} {x : Status}

/-- `InvalidInput` comes only from a TX of that negative value (R116). -/
theorem StatusFits.invalidInput {v : Int} (h : StatusFits s t i x) (hx : x = .invalidInput v) :
    v < 0 ∧ (i = .txP v ∨ i = .txB v) := by
  subst hx
  cases h with
  | invalid _ hv hi => exact ⟨hv, hi⟩

/-- `PinAccessFailure` comes from no OPEN, and `Fail` of the call is the last event (R117). -/
theorem StatusFits.pinAccessFailure {c : PinCall} {n : Option Nat} (h : StatusFits s t i x)
    (hx : x = .pinAccessFailure c n) : i.kind ≠ .opens ∧ t.trace.getLast? = some (.fail c) := by
  subst hx
  cases h with
  | failed _ hk ht => exact ⟨hk, ht⟩

/-- `LifecycleViolation` comes exactly where LIFE is not the legal one, with the LIFE found (R118). -/
theorem StatusFits.lifecycleViolation_iff (h : StatusFits s t i x) (l : Life) :
    x = .lifecycleViolation l ↔ l = s.cur.life ∧ s.cur.life ≠ i.legalLife := by
  cases h with
  | ok hl | invalid hl | failed hl => exact ⟨nofun, fun ⟨_, hne⟩ => absurd hl hne⟩
  | lifecycle hl => exact ⟨fun hx => ⟨(Status.lifecycleViolation.inj hx).symm, hl⟩, fun ⟨he, _⟩ => he ▸ rfl⟩

end StatusFits

/-- Settles O40, by the ways a command ends. -/
theorem statusTable : Obligations.StatusTable := by
  refine ⟨fun i s t h => ?_, rfl, fun _ => rfl, fun _ _ => rfl, fun _ => rfl⟩
  obtain ⟨r, hr, hfits⟩ := (exec_cases h).2.status
  exact ⟨r, hr, fun _ => hfits.invalidInput, fun _ _ => hfits.pinAccessFailure, hfits.lifecycleViolation_iff⟩

/-! ### The negative operand (R116) -/

/-- The body of a TX raises a negative operand before it does anything (R64, R116). -/
theorem bodyOf_negative {i : Instr} {v : Int} (hi : i = .txP v ∨ i = .txB v) (hv : v < 0) (s : State) :
    bodyOf i s = .raised (.invalidInput v) s := by
  have hneg : nonNegative v s = .raised (.invalidInput v) s := if_pos hv
  rcases hi with rfl | rfl <;> simp only [bodyOf, hneg, Res.bind_raised]

/-- Settles O39: nothing has been done when a TX raises it, and CLOSE.B is no TX. -/
theorem invalidInputOnly : Obligations.InvalidInputOnly := by
  intro s
  refine ⟨fun v hv => ⟨rfl, fun hs => ?_, fun hs => ?_⟩, fun t h => ?_⟩
  · exact exec_raised (i := .txP v) hs (bodyOf_negative (.inl rfl) hv _) rfl rfl
  · exact exec_raised (i := .txB v) hs (bodyOf_negative (.inr rfl) hv _) rfl rfl
  · obtain ⟨r, hr, hfits⟩ := (exec_cases h).2.status
    refine ⟨r, hr, fun v hv => ?_⟩
    obtain ⟨-, hi | hi⟩ := hfits.invalidInput hv
    · cases hi
    · cases hi

end Sys2Proof.Machine
end

section
/-! Reset and hazards (70_reset_and_hazards.md): what a CLOSE does to the whole platform, ERR after a completed
transmit, the idle step, and the construction of the PinInterface. -/

namespace Sys2Proof.Machine

/-! ### The release of every pin (R45, R149) -/

/-- Only a completed release closes an open block, and it is the last thing its command does to the pins. -/
theorem Ends.pins_of_closed {i : Instr} {s t : State} (h : Ends s i t) (hs : s.cur.life = .opened)
    (ht : t.cur.life = .closed) : t.pins = [] := by
  have hclosed : s.cur.life ≠ .closed := by simp [hs]
  cases h with
  | closePDone => rfl
  | closeBDone => exact Pins.replay_append ..
  | opened => cases ht
  | lifecycle | invalid | txPDone | txPFail | txBDone | txBFail | rxDone | rxFail | closePFail | closeBRelease |
    closeBFail => exact absurd ht hclosed

/-- Settles O36: the other blocks are in the frame of every command, and only a CLOSE closes an open block, so that it
is one need not be asked. -/
theorem closeReleasesAllPins : Obligations.CloseReleasesAllPins := by
  intro i s t _ h ht
  obtain ⟨⟨hbefore, hafter, -⟩, -⟩ := commandFrame i s t h
  refine ⟨fun hs p => ?_, hbefore, hafter⟩
  have hpins : t.pins = [] := (exec_cases h).2.pins_of_closed hs ht
  have hcell : t.pins.get p = PinCell.initial := by rw [hpins, Pins.get_nil]
  exact ⟨hcell, by simp [State.level, hcell, PinCell.initial]⟩

/-! ### ERR after a transmit (R26, R145) -/

/-- In CORRECTED mode ERR says that the register is longer than the width: that the value overflows it (R26). -/
theorem errResult_corrected_encode {w : Nat} (hw : 1 ≤ w) (v : Nat) :
    errResult .corrected (max (blen v) w) w = decide (2 ^ w ≤ v) := by
  have hover : w < max (blen v) w ↔ 2 ^ w ≤ v := by
    rw [lt_max_iff, or_iff_left (lt_irrefl w), ← not_le, blen_le_iff hw, not_lt]
  exact decide_eq_decide.2 hover

/-- A transmit that ends OK has updated ERR with the length of its register; a parallel block has width 8. -/
theorem Ends.err_of_transmit {i : Instr} {s t : State} (h : Ends s i t) {v : Nat}
    (hi : i = .txP (v : Int) ∨ i = .txB (v : Int)) (hpar : i.mode = .par → s.cur.cfg.w = 8) :
    ∃ r, t.responses = s.responses ++ [r] ∧ (r.status = .ok →
      t.cur.err = some (errResult s.cur.cfg.errMode (max (blen v) s.cur.cfg.w) s.cur.cfg.w)) := by
  have hk : i.kind = .transmits := by rcases hi with rfl | rfl <;> rfl
  cases h with
  | txPDone u =>
    obtain rfl : u = v := by simpa using hi
    rw [hpar rfl]
    exact ⟨_, rfl, fun _ => rfl⟩
  | txBDone u =>
    obtain rfl : u = v := by simpa using hi
    exact ⟨_, rfl, fun _ => rfl⟩
  | lifecycle | invalid | txPFail | txBFail | rxFail | closePFail | closeBRelease | closeBFail =>
    exact ⟨_, rfl, nofun⟩
  | opened ho | rxDone ho => cases ho.symm.trans hk
  | closePDone | closeBDone => cases hk

/-- Settles O46: the one write of ERR in a completed transmit, read in each mode. -/
theorem errAfterTransmit : Obligations.ErrAfterTransmit := by
  intro i s t v hi h r hr hok
  obtain ⟨⟨-, -, hmode, hwf, -⟩, hends⟩ := exec_cases h
  obtain ⟨hw, hpar, -⟩ := wf_clauses hwf
  obtain ⟨r', hr', herr⟩ := hends.err_of_transmit hi fun hm => hpar (hmode.trans hm)
  obtain rfl : r' = r := by simpa [hr'] using hr
  rw [herr hok]
  exact ⟨fun hm => by rw [hm]; rfl, fun hm => by rw [hm, errResult_corrected_encode hw]⟩

/-! ### The idle step and the construction of the PinInterface (R113, R136, R138) -/

/-- Settles O53: without an action of the host there is nothing to serve. -/
theorem idleStep : Obligations.IdleStep := by
  intro s hidle
  exact step_idle hidle

/-- Before the PinInterface exists no command is admitted, of whichever transport (R138). -/
theorem refusalOf_noPinInterface {s : State} (h : s.numbering = none) (m : Mode) :
    refusalOf m s = some .noPinInterface := if_pos h

/-- Settles O55: the step is `constructPlatform` once the action is consumed, which asks only whether the
PinInterface exists. -/
theorem constructOnce : Obligations.ConstructOnce := by
  intro s n rest hh
  rw [step_construct hh]
  refine ⟨fun hn => ⟨?_, fun i => exec_of_refusalOf (refusalOf_noPinInterface hn i.mode)⟩, fun hn => ?_⟩
  · exact if_pos hn
  · exact if_neg hn

end Sys2Proof.Machine
end
